-- ==== Sys2Proof/Word.lean ====
section
/-! DEFINITION. The word types of the block (00_scope.md R8: all values are unsigned, bit 0 is the least significant bit). -/

namespace Sys2Proof

/-- A 32-bit value: the CRC register, a transform operand, `RESULT`, `XOUT` (00_scope.md R7, 10_state.md R11, R15). -/
abbrev Word := BitVec 32

/-- One input symbol, a byte (00_scope.md R7). -/
abbrev Byte := BitVec 8

/-- A 40-bit command word `CW[39:0]` (30_encoding.md R30, R31). -/
abbrev CommandWord := BitVec 40

/-- A convention number as `CONV` and the `sel` field of INIT hold it: 0 Vanilla, 1 Invert, 2 BitReverseInvert,
3 BytewiseBitReverseInvert (10_state.md R13). -/
abbrev Convention := BitVec 2

end Sys2Proof
end

