-- ==== Sys2Proof/Syntax.lean ====
section
/-! DEFINITION. The commands: one constructor for each of the 21 rows of spec/opcode_table.json (30_encoding.md R33). -/

namespace Sys2Proof

/-- A decoded command. `din` is the whole 32-bit data operand: one that is too wide for its command decodes
(30_encoding.md R33, R36) and is refused when the command executes (R38). -/
inductive Instr where
  /-- NOP, 43_conventions.md R79. -/
  | nop
  /-- INIT, 43_conventions.md R80: the convention stands in `sel`. -/
  | init (conv : Convention)
  /-- SBIT, 41_serial_engine.md R56. -/
  | sbit (din : Word)
  /-- SBYTE, 41_serial_engine.md R57. -/
  | sbyte (din : Word)
  /-- PBYTE, 42_parallel_engine.md R67. -/
  | pbyte (din : Word)
  /-- DATAS, 43_conventions.md R81. -/
  | datas (din : Word)
  /-- DATAP, 43_conventions.md R82. -/
  | datap (din : Word)
  /-- FINS, 43_conventions.md R83. -/
  | fins
  /-- FINP, 43_conventions.md R84. -/
  | finp
  /-- REVB.8, 40_transforms.md R45. -/
  | revb8 (din : Word)
  /-- REVB.16, 40_transforms.md R45. -/
  | revb16 (din : Word)
  /-- REVB.32, 40_transforms.md R45. -/
  | revb32 (din : Word)
  /-- REVPB.8, 40_transforms.md R46. -/
  | revpb8 (din : Word)
  /-- REVPB.16, 40_transforms.md R46. -/
  | revpb16 (din : Word)
  /-- REVPB.32, 40_transforms.md R46. -/
  | revpb32 (din : Word)
  /-- SWAPB.8, 40_transforms.md R47. -/
  | swapb8 (din : Word)
  /-- SWAPB.16, 40_transforms.md R47. -/
  | swapb16 (din : Word)
  /-- SWAPB.32, 40_transforms.md R47. -/
  | swapb32 (din : Word)
  /-- CPL.8, 40_transforms.md R48. -/
  | cpl8 (din : Word)
  /-- CPL.16, 40_transforms.md R48. -/
  | cpl16 (din : Word)
  /-- CPL.32, 40_transforms.md R48. -/
  | cpl32 (din : Word)
deriving DecidableEq, Repr

/-- The mnemonic of a command, as the opcode map of 30_encoding.md R33 spells it. -/
def Instr.mnemonic : Instr → String
  | .nop => "NOP"
  | .init _ => "INIT"
  | .sbit _ => "SBIT"
  | .sbyte _ => "SBYTE"
  | .pbyte _ => "PBYTE"
  | .datas _ => "DATAS"
  | .datap _ => "DATAP"
  | .fins => "FINS"
  | .finp => "FINP"
  | .revb8 _ => "REVB.8"
  | .revb16 _ => "REVB.16"
  | .revb32 _ => "REVB.32"
  | .revpb8 _ => "REVPB.8"
  | .revpb16 _ => "REVPB.16"
  | .revpb32 _ => "REVPB.32"
  | .swapb8 _ => "SWAPB.8"
  | .swapb16 _ => "SWAPB.16"
  | .swapb32 _ => "SWAPB.32"
  | .cpl8 _ => "CPL.8"
  | .cpl16 _ => "CPL.16"
  | .cpl32 _ => "CPL.32"

end Sys2Proof
end

