-- ==== Sys2Proof/WellFormed.lean ====
section
/-! DEFINITION. A well-formed command is what 30_encoding.md R39 calls a legal one: its data operand, if it has one, fits
the operand width the command declares (R36, R38). Every command has an encoding, well-formed or not: an ill-formed one
decodes and raises WidthViolation when it executes (log 15). -/

namespace Sys2Proof

/-- The data operand `din` of a command that has one (30_encoding.md R31, R33). -/
def Instr.operand? : Instr → Option Word
  | .nop => none
  | .init _ => none
  | .sbit din => some din
  | .sbyte din => some din
  | .pbyte din => some din
  | .datas din => some din
  | .datap din => some din
  | .fins => none
  | .finp => none
  | .revb8 din => some din
  | .revb16 din => some din
  | .revb32 din => some din
  | .revpb8 din => some din
  | .revpb16 din => some din
  | .revpb32 din => some din
  | .swapb8 din => some din
  | .swapb16 din => some din
  | .swapb32 din => some din
  | .cpl8 din => some din
  | .cpl16 din => some din
  | .cpl32 din => some din

/-- The declared operand width `ow` of 30_encoding.md R36: 1 for SBIT, 8 for the byte commands, `w` for a transform, and 0
for a command that takes no data (R26). -/
def Instr.operandWidth : Instr → Nat
  | .nop => 0
  | .init _ => 0
  | .sbit _ => 1
  | .sbyte _ => 8
  | .pbyte _ => 8
  | .datas _ => 8
  | .datap _ => 8
  | .fins => 0
  | .finp => 0
  | .revb8 _ => 8
  | .revb16 _ => 16
  | .revb32 _ => 32
  | .revpb8 _ => 8
  | .revpb16 _ => 16
  | .revpb32 _ => 32
  | .swapb8 _ => 8
  | .swapb16 _ => 16
  | .swapb32 _ => 32
  | .cpl8 _ => 8
  | .cpl16 _ => 16
  | .cpl32 _ => 32

/-- `din < 2^ow`, the precondition of 30_encoding.md R36 and R38; a command without a data operand meets it. -/
def Instr.wellFormed (i : Instr) : Bool :=
  match i.operand? with
  | none => true
  | some din => decide (din.toNat < 2 ^ i.operandWidth)

end Sys2Proof
end

