-- ==== Sys2Proof/Decode.lean ====
section
/-! DEFINITION. The decoder of 30_encoding.md R35, total on all 2^40 command words and rejecting by name; the encoder,
written from the format and the opcode map (R31, R33); the opcode map itself as rows of match and mask (R33); and the
assembler's pseudo-commands (R39). The block has no memory, so a command word has no byte image and no byte order
(20_memory.md R24): the decoder takes the 40-bit word (log 12). -/

namespace Sys2Proof

/-! ### The fields of the command word (R31) -/

/-- `op = CW[39:36]`. -/
def opField (cw : CommandWord) : BitVec 4 := cw.extractLsb' 36 4

/-- `sel = CW[35:34]`. -/
def selField (cw : CommandWord) : BitVec 2 := cw.extractLsb' 34 2

/-- `rsv = CW[33:32]`. -/
def rsvField (cw : CommandWord) : BitVec 2 := cw.extractLsb' 32 2

/-- `din = CW[31:0]`. -/
def dinField (cw : CommandWord) : Word := cw.extractLsb' 0 32

/-- A command word from its four fields: `op * 2^36 + sel * 2^34 + rsv * 2^32 + din`, that is `op, sel, rsv, din`
concatenated with `op` in the high bits (R31). -/
def assembleWord (op : BitVec 4) (sel rsv : BitVec 2) (din : Word) : CommandWord := ((op ++ sel) ++ rsv) ++ din

/-! ### The decoder (R35) -/

/-- Why a word is illegal (R34). -/
inductive Illegal where
  /-- `rsv != 0`. -/
  | reservedField
  /-- `op` is 13, 14 or 15. -/
  | reservedOpcode
  /-- `sel = 3` for a transform command. -/
  | reservedWidth
  /-- `sel != 0` for a command that has no `sel`. -/
  | selNotZero
  /-- `din != 0` for a command that takes no data. -/
  | dinNotZero
deriving DecidableEq, Repr

/-- A command with neither `sel` nor data: NOP, FINS, FINP. -/
def decodeBare (i : Instr) (sel : BitVec 2) (din : Word) : Except Illegal Instr :=
  if sel ≠ 0 then .error .selNotZero else if din ≠ 0 then .error .dinNotZero else .ok i

/-- A command with a data operand and no `sel`: SBIT, SBYTE, PBYTE, DATAS, DATAP. -/
def decodeData (i : Word → Instr) (sel : BitVec 2) (din : Word) : Except Illegal Instr :=
  if sel ≠ 0 then .error .selNotZero else .ok (i din)

/-- A transform command: `sel` selects `w = 8 << sel`, and 3 is reserved (R32). -/
def decodeTransform (i8 i16 i32 : Word → Instr) (sel : BitVec 2) (din : Word) : Except Illegal Instr :=
  if sel = 0 then .ok (i8 din) else if sel = 1 then .ok (i16 din) else if sel = 2 then .ok (i32 din)
  else .error .reservedWidth

/-- R35, case by case on `op`, once `rsv` is known to be zero. -/
def decodeOp (op : Nat) (sel : BitVec 2) (din : Word) : Except Illegal Instr :=
  match op with
  | 0 => decodeBare .nop sel din
  | 1 => if din ≠ 0 then .error .dinNotZero else .ok (.init sel)
  | 2 => decodeData .sbit sel din
  | 3 => decodeData .sbyte sel din
  | 4 => decodeData .pbyte sel din
  | 5 => decodeData .datas sel din
  | 6 => decodeData .datap sel din
  | 7 => decodeBare .fins sel din
  | 8 => decodeBare .finp sel din
  | 9 => decodeTransform .revb8 .revb16 .revb32 sel din
  | 10 => decodeTransform .revpb8 .revpb16 .revpb32 sel din
  | 11 => decodeTransform .swapb8 .swapb16 .swapb32 sel din
  | 12 => decodeTransform .cpl8 .cpl16 .cpl32 sel din
  | _ => .error .reservedOpcode

/-- The decoder of R35. -/
def decode (cw : CommandWord) : Except Illegal Instr :=
  if rsvField cw ≠ 0 then .error .reservedField
  else decodeOp (opField cw).toNat (selField cw) (dinField cw)

/-! ### The encoder, from the format and the opcode map (R31, R33) -/

/-- The operation code of a command (R33). -/
def Instr.opcode : Instr → BitVec 4
  | .nop => 0
  | .init _ => 1
  | .sbit _ => 2
  | .sbyte _ => 3
  | .pbyte _ => 4
  | .datas _ => 5
  | .datap _ => 6
  | .fins => 7
  | .finp => 8
  | .revb8 _ => 9
  | .revb16 _ => 9
  | .revb32 _ => 9
  | .revpb8 _ => 10
  | .revpb16 _ => 10
  | .revpb32 _ => 10
  | .swapb8 _ => 11
  | .swapb16 _ => 11
  | .swapb32 _ => 11
  | .cpl8 _ => 12
  | .cpl16 _ => 12
  | .cpl32 _ => 12

/-- The `sel` field of a command: the convention of INIT, the width code of a transform, 0 otherwise (R31, R32). -/
def Instr.sel : Instr → BitVec 2
  | .nop => 0
  | .init conv => conv
  | .sbit _ => 0
  | .sbyte _ => 0
  | .pbyte _ => 0
  | .datas _ => 0
  | .datap _ => 0
  | .fins => 0
  | .finp => 0
  | .revb8 _ => 0
  | .revb16 _ => 1
  | .revb32 _ => 2
  | .revpb8 _ => 0
  | .revpb16 _ => 1
  | .revpb32 _ => 2
  | .swapb8 _ => 0
  | .swapb16 _ => 1
  | .swapb32 _ => 2
  | .cpl8 _ => 0
  | .cpl16 _ => 1
  | .cpl32 _ => 2

/-- The `din` field of a command: its data operand, 0 when it takes none (R31). -/
def Instr.din (i : Instr) : Word := i.operand?.getD 0

/-- The command word of a command. -/
def encode (i : Instr) : CommandWord := assembleWord i.opcode i.sel 0 i.din

/-! ### The opcode map as data (R33) -/

/-- One row of the opcode map: a word `cw` selects it when `cw & mask = pattern`. -/
structure OpcodeRow where
  mnemonic : String
  pattern : CommandWord
  mask : CommandWord
deriving DecidableEq, Repr

/-- The word selects the row (R33). -/
def OpcodeRow.selects (r : OpcodeRow) (cw : CommandWord) : Bool := cw &&& r.mask == r.pattern

/-- The rows of NOP, INIT and the engine and message commands, transcribed from R33. -/
def engineRows : List OpcodeRow :=
  [⟨"NOP", 0x0000000000, 0xFFFFFFFFFF⟩, ⟨"INIT", 0x1000000000, 0xF3FFFFFFFF⟩, ⟨"SBIT", 0x2000000000, 0xFF00000000⟩,
   ⟨"SBYTE", 0x3000000000, 0xFF00000000⟩, ⟨"PBYTE", 0x4000000000, 0xFF00000000⟩, ⟨"DATAS", 0x5000000000, 0xFF00000000⟩,
   ⟨"DATAP", 0x6000000000, 0xFF00000000⟩, ⟨"FINS", 0x7000000000, 0xFFFFFFFFFF⟩, ⟨"FINP", 0x8000000000, 0xFFFFFFFFFF⟩]

/-- The rows of the transform commands, transcribed from R33. -/
def transformRows : List OpcodeRow :=
  [⟨"REVB.8", 0x9000000000, 0xFF00000000⟩, ⟨"REVB.16", 0x9400000000, 0xFF00000000⟩, ⟨"REVB.32", 0x9800000000, 0xFF00000000⟩,
   ⟨"REVPB.8", 0xA000000000, 0xFF00000000⟩, ⟨"REVPB.16", 0xA400000000, 0xFF00000000⟩, ⟨"REVPB.32", 0xA800000000, 0xFF00000000⟩,
   ⟨"SWAPB.8", 0xB000000000, 0xFF00000000⟩, ⟨"SWAPB.16", 0xB400000000, 0xFF00000000⟩, ⟨"SWAPB.32", 0xB800000000, 0xFF00000000⟩,
   ⟨"CPL.8", 0xC000000000, 0xFF00000000⟩, ⟨"CPL.16", 0xC400000000, 0xFF00000000⟩, ⟨"CPL.32", 0xC800000000, 0xFF00000000⟩]

/-- The 21 rows of the opcode map (R33). -/
def opcodeMap : List OpcodeRow := engineRows ++ transformRows

/-! ### Words numbered as the opcode table numbers them -/

/-- The command word with the given bits, numbered as spec/opcode_table.json numbers them: one number, bit 0 the least
significant; bits at `nbits` and above are 0 (log 12). -/
def commandWordOfTable (nbits w : Nat) : CommandWord := BitVec.ofNat 40 (w % 2 ^ nbits)

/-- What the decoder reads from an instruction of the opcode table; a number that does not fit in 40 bits is no command
word (log 12). -/
def decodeTableWord (nbits w : Nat) : Option Instr :=
  if w % 2 ^ nbits < 2 ^ 40 then (decode (commandWordOfTable nbits w)).toOption else none

/-! ### The assembler's input (R39)

One constructor per line of the syntax table of R39, with its numbers as the reader of a program writes them, and the five
pseudo-commands with their exact expansions. The characters of a line are read in Machine/AsmText.lean (log 14). -/

/-- The four names R39 allows for `<conv>`: VANILLA, INVERT, BRI, BBRI. -/
inductive ConventionName where
  | vanilla
  | invert
  | bri
  | bbri
deriving DecidableEq, Repr

/-- The number of a named convention (10_state.md R13). -/
def ConventionName.number : ConventionName → Convention
  | .vanilla => 0
  | .invert => 1
  | .bri => 2
  | .bbri => 3

/-- A width suffix `.8`, `.16` or `.32`. -/
inductive WidthSuffix where
  | w8
  | w16
  | w32
deriving DecidableEq, Repr

/-- One line of assembler input (R39). -/
inductive AsmLine where
  | nop
  | init (conv : Nat)
  | initNamed (conv : ConventionName)
  | sbit (n : Nat)
  | sbyte (n : Nat)
  | pbyte (n : Nat)
  | datas (n : Nat)
  | datap (n : Nat)
  | fins
  | finp
  | revb (w : WidthSuffix) (n : Nat)
  | revpb (w : WidthSuffix) (n : Nat)
  | swapb (w : WidthSuffix) (n : Nat)
  | cpl (w : WidthSuffix) (n : Nat)
  /-- pseudo-command `CLR` -/
  | clr
  /-- pseudo-command `SETCRC v` -/
  | setcrc (v : Nat)
  /-- pseudo-command `MSGS conv, [b0, ...]` -/
  | msgs (conv : Nat) (bytes : List Nat)
  /-- pseudo-command `MSGP conv, [b0, ...]` -/
  | msgp (conv : Nat) (bytes : List Nat)
  /-- pseudo-command `SBITS byte` -/
  | sbits (byte : Byte)
deriving DecidableEq, Repr

/-- The assembler does not reject an operand that is too wide for its command "but rejects one that does not fit in 32
bits" (R39). -/
def asmNumber (n : Nat) : Option Word := if n < 2 ^ 32 then some (BitVec.ofNat 32 n) else none

/-- `<conv>` is 0 to 3 (R39). -/
def asmConvention (n : Nat) : Option Convention := if n < 4 then some (BitVec.ofNat 2 n) else none

/-- A transform line picks the row of its width. -/
def asmTransform (i8 i16 i32 : Word → Instr) (w : WidthSuffix) (n : Nat) : Option (List Instr) :=
  (asmNumber n).map fun din =>
    match w with
    | .w8 => [i8 din]
    | .w16 => [i16 din]
    | .w32 => [i32 din]

/-- `INIT conv`, one data command for each byte, and the closing command: the expansion of `MSGS` and `MSGP` (R39). -/
def asmMessage (data : Word → Instr) (fin : Instr) (conv : Nat) (bytes : List Nat) : Option (List Instr) :=
  match asmConvention conv, bytes.mapM asmNumber with
  | some c, some ds => some (.init c :: (ds.map data ++ [fin]))
  | _, _ => none

/-- Byte `k` of a word, as a data operand (00_scope.md R8). -/
def wordByteOperand (v : Word) (k : Nat) : Word := (v.extractLsb' (8 * k) 8).setWidth 32

/-- Bit `k` of a byte, as a data operand. -/
def byteBitOperand (d : Byte) (k : Nat) : Word := (d.extractLsb' k 1).setWidth 32

/-- The commands a line stands for (R39). -/
def assemble : AsmLine → Option (List Instr)
  | .nop => some [.nop]
  | .init conv => (asmConvention conv).map fun c => [.init c]
  | .initNamed name => some [.init name.number]
  | .sbit n => (asmNumber n).map fun din => [.sbit din]
  | .sbyte n => (asmNumber n).map fun din => [.sbyte din]
  | .pbyte n => (asmNumber n).map fun din => [.pbyte din]
  | .datas n => (asmNumber n).map fun din => [.datas din]
  | .datap n => (asmNumber n).map fun din => [.datap din]
  | .fins => some [.fins]
  | .finp => some [.finp]
  | .revb w n => asmTransform .revb8 .revb16 .revb32 w n
  | .revpb w n => asmTransform .revpb8 .revpb16 .revpb32 w n
  | .swapb w n => asmTransform .swapb8 .swapb16 .swapb32 w n
  | .cpl w n => asmTransform .cpl8 .cpl16 .cpl32 w n
  | .clr => some [.init 0]
  | .setcrc v =>
    (asmNumber v).map fun v =>
      [.init 0, .pbyte (wordByteOperand v 3), .pbyte (wordByteOperand v 2), .pbyte (wordByteOperand v 1),
       .pbyte (wordByteOperand v 0)]
  | .msgs conv bytes => asmMessage .datas .fins conv bytes
  | .msgp conv bytes => asmMessage .datap .finp conv bytes
  | .sbits d =>
    some [.sbit (byteBitOperand d 7), .sbit (byteBitOperand d 6), .sbit (byteBitOperand d 5), .sbit (byteBitOperand d 4),
      .sbit (byteBitOperand d 3), .sbit (byteBitOperand d 2), .sbit (byteBitOperand d 1), .sbit (byteBitOperand d 0)]

end Sys2Proof
end

