-- ==== Sys2Proof/Config.lean ====
section
/-! DEFINITION. What is fixed for this hardware (00_scope.md R7) and its one open parameter. -/

namespace Sys2Proof.Config

/-- The generator polynomial without its leading term, `0x04C11DB7` (R7). -/
def poly : Word := 0x04C11DB7#32

/-- The generator polynomial with its leading x^32 term, `0x104C11DB7` (R7). -/
def poly33 : BitVec 33 := 0x104C11DB7#33

/-- The reflected form `0xEDB88320` (R7: informative; no rule of operation uses it). -/
def polyReflected : Word := 0xEDB88320#32

/-- The initial CRC register value of a message (R7). -/
def initialCrc : Word := 0#32

/-- `T_CMD`, the cycles a command takes: an open parameter with no value (R7, 70_reset_and_hazards.md R107, decision D13).
No rule reads it, so no definition of the model does (log 9). -/
opaque tCmd : Nat

end Sys2Proof.Config
end

