-- ==== Sys2Proof/Machine/State.lean ====
section
/-! DEFINITION. The state of the block (10_state.md R10: four registers, 39 bits), the host's stream of inputs, the stop
reasons, and the state after reset (70_reset_and_hazards.md R100). -/

namespace Sys2Proof.Machine

/-- What the `FAULT` register holds (10_state.md R14). The fourth 2-bit value, 3, is "never written" and has no
constructor, as 93_implementation_defined.md U7 directs (log 5). -/
inductive FaultCause where
  /-- `FAULT = 0`: no fault; the block runs. -/
  | noFault
  /-- `FAULT = 1`, IllegalCommand: the command word matches no row of the opcode map (60_exceptions.md R90). -/
  | illegalCommand
  /-- `FAULT = 2`, WidthViolation: the data operand exceeds its declared width (60_exceptions.md R90). -/
  | widthViolation
deriving DecidableEq, Repr

/-- One thing the host does to the block between two commands (70_reset_and_hazards.md R109): it presents a command word,
any of the 2^40, or applies reset. -/
inductive HostInput where
  /-- Present the command word (30_encoding.md R30). -/
  | command (cw : CommandWord)
  /-- Apply the reset input `rst` between commands (70_reset_and_hazards.md R100). -/
  | reset
deriving DecidableEq, Repr

/-- The reasons a step answers `fault`: none. Both faults of the block are next states with `FAULT` set
(60_exceptions.md R92, R98; log 4), and every command terminates, so no step stops with a fault (safe: nothing is hidden). -/
inductive Fault where
deriving DecidableEq, Repr

/-- The reasons a step answers `refused`. -/
inductive Refusal where
  /-- Raised by an arm of `exec` whose command has no meaning yet; no arm is so (safe: such a step only stops). -/
  | notModelled (mnemonic : String)
deriving DecidableEq, Repr

/-- The registers of R10, the value on the port `XOUT`, and the host inputs still to come. -/
structure State where
  /-- `CRC[31:0]`, the CRC register (10_state.md R11). -/
  crc : Word
  /-- `LEN[2:0]`, the saturating count of message bytes; its legal values are 0 to 4 (10_state.md R12; log 5). -/
  len : Fin 5
  /-- `CONV[1:0]`, the convention of the current message (10_state.md R13). -/
  conv : Convention
  /-- `FAULT[1:0]`, the cause of the first fault (10_state.md R14). -/
  fault : FaultCause
  /-- The model's own field: the value on the output `XOUT[31:0]` when the last step completed. It is no register
  (10_state.md R15) and no step reads it (log 2). -/
  xout : Word
  /-- The model's own field: what the host has still to present, oldest first (20_memory.md R27; log 1). -/
  pending : List HostInput
deriving DecidableEq, Repr

/-- The state after reset (70_reset_and_hazards.md R100), with nothing presented by the host yet (log 1). -/
def State.reset : State where
  crc := 0
  len := 0
  conv := 0
  fault := .noFault
  xout := 0
  pending := []

end Sys2Proof.Machine
end

