-- ==== Sys2Proof/Machine/Flags.lean ====
section
/-! DEFINITION. The block has no condition codes, carry, overflow, zero or sign flags (10_state.md R18). Its one status
value is `FAULT`; this file reads it: its 2-bit code, the output `FAULTOUT`, and running against halted
(60_exceptions.md R93, R96). -/

namespace Sys2Proof.Machine

/-- The 2-bit code of a fault cause (60_exceptions.md R90). -/
def FaultCause.code : FaultCause → BitVec 2
  | .noFault => 0
  | .illegalCommand => 1
  | .widthViolation => 2

/-- The output `FAULTOUT[1:0] = FAULT` (10_state.md R15). -/
def State.faultOut (s : State) : BitVec 2 := s.fault.code

/-- The block runs: `FAULT = 0` (60_exceptions.md R96). -/
abbrev State.Running (s : State) : Prop := s.fault = .noFault

/-- The block is halted: `FAULT != 0` (60_exceptions.md R93). -/
abbrev State.Halted (s : State) : Prop := s.fault ≠ .noFault

end Sys2Proof.Machine
end

