-- ==== Sys2Proof/Machine/Operands.lean ====
section
/-! DEFINITION. The operand forms: a bit, a byte or a word of declared width (30_encoding.md R36, R38; 20_memory.md R26),
and the assembly of a word from its bits (00_scope.md R8). -/

namespace Sys2Proof.Machine

/-- The width check `din < 2^ow` (30_encoding.md R38). -/
abbrev OperandFits (ow : Nat) (din : Word) : Prop := din.toNat < 2 ^ ow

/-- The bit operand of SBIT, `din[0]`; under the width check it is all of `din` (30_encoding.md R36). -/
def bitOperand (din : Word) : Bool := din.getLsbD 0

/-- The byte operand of SBYTE, PBYTE, DATAS, DATAP, `din[7:0]`; under the width check it is all of `din`
(30_encoding.md R36). -/
def byteOperand (din : Word) : Byte := din.setWidth 8

/-- The word operand of a transform, `din[w-1:0]`; under the width check it is all of `din` (30_encoding.md R36; log 8). -/
def wordOperand (w : Nat) (din : Word) : BitVec w := din.setWidth w

/-- The `w`-bit value whose bit `i` is `f i` (00_scope.md R8: bit 0 is the least significant). -/
def ofBits (f : Nat → Bool) : (w : Nat) → BitVec w
  | 0 => BitVec.nil
  | w + 1 => BitVec.cons (f w) (ofBits f w)

end Sys2Proof.Machine
end

