-- ==== Sys2Proof/Machine/Ops.lean ====
section
/-! DEFINITION. The shared operations: ignoring a command while halted, taking a fault, the checks that stand before every
command's effect, driving the outputs, reset, and taking the next host input. -/

namespace Sys2Proof.Machine

/-- An ignored command: no register is written and `XOUT = 0` (60_exceptions.md R93). -/
def ignoreCommand (s : State) : State := { s with xout := 0 }

/-- TAKING A FAULT, the one operation for both causes (60_exceptions.md R92): `FAULT` is written, nothing else is, and
`XOUT = 0`. There is no handler, vector, saved state or mode; the only return is `applyReset` (R94). -/
def takeFault (cause : FaultCause) (s : State) : State := { s with fault := cause, xout := 0 }

/-- A command's effect stands behind the halt rule (60_exceptions.md R91 item 1, R93). -/
def whenRunning (effect : State → State) (s : State) : State :=
  if s.Running then effect s else ignoreCommand s

/-- The effect of a command with a data operand stands behind the halt rule and then the width check
(60_exceptions.md R91 items 1 and 3, 30_encoding.md R38). -/
def withOperand (ow : Nat) (din : Word) (effect : State → State) (s : State) : State :=
  whenRunning (fun s => if OperandFits ow din then effect s else takeFault .widthViolation s) s

/-- `CRC <- v`; a command that is not a transform drives `XOUT` to 0 (10_state.md R15). -/
def writeCrc (v : Word) (s : State) : State := { s with crc := v, xout := 0 }

/-- `XOUT <- v`: what a transform command does, and nothing else (40_transforms.md R44). -/
def driveXout (v : Word) (s : State) : State := { s with xout := v }

/-- `LEN <- min(LEN + 1, 4)` (10_state.md R12). -/
def countByte (len : Fin 5) : Fin 5 := ⟨min (len.val + 1) 4, by omega⟩

/-- Reset applied between commands (70_reset_and_hazards.md R100): every register and output takes its reset value; what
the host will present next is the host's and stays. -/
def applyReset (s : State) : State := { State.reset with pending := s.pending }

/-- The host presents nothing: the state holds (70_reset_and_hazards.md R109, 60_exceptions.md R97). `XOUT` is the value of
the current transform command, else 0 (92_eei_decisions.md D16), and there is no current command (log 3). -/
def idle (s : State) : State := { s with xout := 0 }

/-- The next host input and the state in which it has been taken from the stream, if there is one (20_memory.md R27). -/
def takeInput (s : State) : Option (HostInput × State) :=
  match s.pending with
  | [] => none
  | input :: rest => some (input, { s with pending := rest })

/-- The host is about to present `cw`. -/
def pushCommand (cw : CommandWord) (s : State) : State := { s with pending := .command cw :: s.pending }

end Sys2Proof.Machine
end

