-- ==== Sys2Proof/Machine/Serial.lean ====
section
/-! DEFINITION. The serial engine: the bit step, the byte loop, the padding rule and the whole-message function
(41_serial_engine.md R50, R51, R53, R54), and the commands SBIT and SBYTE (R56, R57). -/

namespace Sys2Proof.Machine

/-- `sstep(r, b)` (R50): shift left by one into a 33-bit value with the input bit at position 0, and XOR `0x104C11DB7` when
bit 32 is set. Bit 32 of the answer is then 0, so the last conversion drops nothing (90_conflicts.md C5). -/
def sstep (r : Word) (b : Bool) : Word :=
  let t : BitVec 33 := (r.setWidth 33 <<< 1) ||| (BitVec.ofBool b).setWidth 33
  (if t.getLsbD 32 then t ^^^ Config.poly33 else t).setWidth 32

/-- The bits of a byte in the order an engine takes them, most-significant first (20_memory.md R20). -/
def feedBits (d : Byte) : List Bool :=
  [d.getLsbD 7, d.getLsbD 6, d.getLsbD 5, d.getLsbD 4, d.getLsbD 3, d.getLsbD 2, d.getLsbD 1, d.getLsbD 0]

/-- `sbyte(r, d)` (R51): 8 bit steps. -/
def sbyte (r : Word) (d : Byte) : Word := (feedBits d).foldl sstep r

/-- `padbyte(len, k)` (43_conventions.md R77): `0xFF` when position `len + k` is one of the first four, else `0x00`. -/
def padByte (len k : Nat) : Byte := if len + k < 4 then 0xFF else 0x00

/-- The four pad bytes for a message of `len` bytes, or of at least 4 when `len` is 4. -/
def padBytes (len : Nat) : List Byte := [padByte len 0, padByte len 1, padByte len 2, padByte len 3]

/-- `pad(M)` (R53): the message and exactly four more bytes. -/
def pad (m : List Byte) : List Byte := m ++ padBytes m.length

/-- `serial_compute(M) = fold sbyte 0 pad(M)` (R54). -/
def serialCompute (m : List Byte) : Word := (pad m).foldl sbyte Config.initialCrc

/-- SBIT (R56): `CRC <- sstep(CRC, din[0])`. -/
def execSbit (din : Word) (s : State) : Host.Outcome State Fault Refusal :=
  .next (withOperand 1 din (fun s => writeCrc (sstep s.crc (bitOperand din)) s) s)

/-- SBYTE (R57): `CRC <- sbyte(CRC, din)`. -/
def execSbyte (din : Word) (s : State) : Host.Outcome State Fault Refusal :=
  .next (withOperand 8 din (fun s => writeCrc (sbyte s.crc (byteOperand din)) s) s)

end Sys2Proof.Machine
end

