-- ==== Sys2Proof/Machine/Parallel.lean ====
section
/-! DEFINITION. The parallel engine: the byte step by its 32 XOR equations (42_parallel_engine.md R60, R61), the same
function as masks (R62), in closed form (R63) and by the derivation method (R68), the whole-message function (R65), and the
command PBYTE (R67). The machine runs the equations; the other forms are stated equal to them (log 11). -/

namespace Sys2Proof.Machine

/-- The 32 equations of R61: bit `i` of the new register from the bits `d` of the byte and `c` of the register. -/
def xorEquation (d c : Nat → Bool) : Nat → Bool
  | 0 => d 0 ^^ c 24 ^^ c 30
  | 1 => d 1 ^^ c 24 ^^ c 25 ^^ c 30 ^^ c 31
  | 2 => d 2 ^^ c 24 ^^ c 25 ^^ c 26 ^^ c 30 ^^ c 31
  | 3 => d 3 ^^ c 25 ^^ c 26 ^^ c 27 ^^ c 31
  | 4 => d 4 ^^ c 24 ^^ c 26 ^^ c 27 ^^ c 28 ^^ c 30
  | 5 => d 5 ^^ c 24 ^^ c 25 ^^ c 27 ^^ c 28 ^^ c 29 ^^ c 30 ^^ c 31
  | 6 => d 6 ^^ c 25 ^^ c 26 ^^ c 28 ^^ c 29 ^^ c 30 ^^ c 31
  | 7 => d 7 ^^ c 24 ^^ c 26 ^^ c 27 ^^ c 29 ^^ c 31
  | 8 => c 0 ^^ c 24 ^^ c 25 ^^ c 27 ^^ c 28
  | 9 => c 1 ^^ c 25 ^^ c 26 ^^ c 28 ^^ c 29
  | 10 => c 2 ^^ c 24 ^^ c 26 ^^ c 27 ^^ c 29
  | 11 => c 3 ^^ c 24 ^^ c 25 ^^ c 27 ^^ c 28
  | 12 => c 4 ^^ c 24 ^^ c 25 ^^ c 26 ^^ c 28 ^^ c 29 ^^ c 30
  | 13 => c 5 ^^ c 25 ^^ c 26 ^^ c 27 ^^ c 29 ^^ c 30 ^^ c 31
  | 14 => c 6 ^^ c 26 ^^ c 27 ^^ c 28 ^^ c 30 ^^ c 31
  | 15 => c 7 ^^ c 27 ^^ c 28 ^^ c 29 ^^ c 31
  | 16 => c 8 ^^ c 24 ^^ c 28 ^^ c 29
  | 17 => c 9 ^^ c 25 ^^ c 29 ^^ c 30
  | 18 => c 10 ^^ c 26 ^^ c 30 ^^ c 31
  | 19 => c 11 ^^ c 27 ^^ c 31
  | 20 => c 12 ^^ c 28
  | 21 => c 13 ^^ c 29
  | 22 => c 14 ^^ c 24
  | 23 => c 15 ^^ c 24 ^^ c 25 ^^ c 30
  | 24 => c 16 ^^ c 25 ^^ c 26 ^^ c 31
  | 25 => c 17 ^^ c 26 ^^ c 27
  | 26 => c 18 ^^ c 24 ^^ c 27 ^^ c 28 ^^ c 30
  | 27 => c 19 ^^ c 25 ^^ c 28 ^^ c 29 ^^ c 31
  | 28 => c 20 ^^ c 26 ^^ c 29 ^^ c 30
  | 29 => c 21 ^^ c 27 ^^ c 30 ^^ c 31
  | 30 => c 22 ^^ c 28 ^^ c 31
  | 31 => c 23 ^^ c 29
  | _ => false

/-- `pstep(d, r)` (R60): the 32 equations, all at once. -/
def pstep (d : Byte) (r : Word) : Word := ofBits (xorEquation d.getLsbD r.getLsbD) 32

/-! ### The same subsets as masks (R62) -/

/-- `CM[0..31]`, the register mask of each output bit, transcribed from R62. -/
def registerMasks : List Word :=
  [0x41000000, 0xC3000000, 0xC7000000, 0x8E000000, 0x5D000000, 0xFB000000, 0xF6000000, 0xAD000000] ++
  [0x1B000001, 0x36000002, 0x2D000004, 0x1B000008, 0x77000010, 0xEE000020, 0xDC000040, 0xB8000080] ++
  [0x31000100, 0x62000200, 0xC4000400, 0x88000800, 0x10001000, 0x20002000, 0x01004000, 0x43008000] ++
  [0x86010000, 0x0C020000, 0x59040000, 0xB2080000, 0x64100000, 0xC8200000, 0x90400000, 0x20800000]

/-- `DM[i]`: `1 << i` for `i <= 7`, 0 above (R62). -/
def byteMask (i : Nat) : Byte := if i ≤ 7 then 1#8 <<< i else 0

/-- `parity(v)`: the XOR of all bits of `v` (R62). -/
def parity {w : Nat} (v : BitVec w) : Bool := (List.range w).foldl (fun p i => p ^^ v.getLsbD i) false

/-- `n[i] = parity(c & CM[i]) ^ parity(d & DM[i])` (R62). -/
def pstepByMasks (d : Byte) (r : Word) : Word :=
  ofBits (fun i => parity (r &&& registerMasks.getD i 0) ^^ parity (d &&& byteMask i)) 32

/-! ### The closed form (R63) -/

/-- `K[0..7]`, the remainders that register bits 24 to 31 leave when they are shifted out (R63). -/
def feedbackConstants : List Word :=
  [0x04C11DB7, 0x09823B6E, 0x130476DC, 0x2608EDB8, 0x4C11DB70, 0x9823B6E0, 0x34867077, 0x690CE0EE]

/-- `F(t)`: the XOR of the constants `K[j]` over the bits `j` of `t` that are 1 (R63). -/
def feedback (t : Byte) : Word :=
  (List.range 8).foldl (fun acc j => if t.getLsbD j then acc ^^^ feedbackConstants.getD j 0 else acc) 0

/-- `{c[23:0], d} ^ F(c[31:24])` (R63). -/
def pstepClosed (d : Byte) (r : Word) : Word := (r.extractLsb' 0 24 ++ d) ^^^ feedback (r.extractLsb' 24 8)

/-! ### The derivation method (R68) -/

/-- A set of symbols out of `c[0..31]` and `d[0..7]`: bit `j` stands for `c[j]` and bit `32 + i` for `d[i]`. The symmetric
difference of two sets is their XOR. -/
abbrev SymbolSet := BitVec 40

/-- The symbol `c[j]` alone. -/
def registerSymbol (j : Nat) : SymbolSet := 1#40 <<< j

/-- The symbol `d[i]` alone. -/
def byteSymbol (i : Nat) : SymbolSet := 1#40 <<< (32 + i)

/-- One application of the per-bit form of R50 to 32 symbol sets, the input bit being `d[i]` (R68). -/
def symbolicStep (old : List SymbolSet) (i : Nat) : List SymbolSet :=
  (List.range 32).map fun j =>
    let shifted := if j = 0 then byteSymbol i else old.getD (j - 1) 0
    if Config.poly.getLsbD j then shifted ^^^ old.getD 31 0 else shifted

/-- The 32 symbol sets after the eight applications, for `i = 7` down to 0 (R68). -/
def derivedSubsets : List SymbolSet := [7, 6, 5, 4, 3, 2, 1, 0].foldl symbolicStep ((List.range 32).map registerSymbol)

/-- The byte step read off derived symbol sets: bit `i` is the XOR of the symbols of set `i` (R68). -/
def pstepDerived (d : Byte) (r : Word) : Word := ofBits (fun i => parity ((d ++ r) &&& derivedSubsets.getD i 0)) 32

/-! ### The whole-message function and the command -/

/-- `parallel_compute(Q)` (R65): no padding is applied inside. -/
def parallelCompute (q : List Byte) : Word := q.foldl (fun r d => pstep d r) Config.initialCrc

/-- PBYTE (R67): `CRC <- pstep(din, CRC)`. -/
def execPbyte (din : Word) (s : State) : Host.Outcome State Fault Refusal :=
  .next (withOperand 8 din (fun s => writeCrc (pstep (byteOperand din) s.crc) s) s)

end Sys2Proof.Machine
end

