-- ==== Sys2Proof/Machine/Transforms.lean ====
section
/-! DEFINITION. The transform library (40_transforms.md R40 to R43) and the commands REVB, REVPB, SWAPB, CPL at widths 8, 16
and 32 (R44 to R48). -/

namespace Sys2Proof.Machine

/-- `reverse_bits(x, w)[i] = x[w-1-i]` (R40). -/
def reverseBits {w : Nat} (x : BitVec w) : BitVec w := ofBits (fun i => x.getLsbD (w - 1 - i)) w

/-- `reverse_bits_per_byte(x, w)[8k + j] = x[8k + 7 - j]` for `0 <= j < 8` (R41), `w` a multiple of 8. -/
def reverseBitsPerByte {w : Nat} (x : BitVec w) : BitVec w :=
  ofBits (fun i => x.getLsbD (8 * (i / 8) + (7 - i % 8))) w

/-- `reverse_byte_order(x, w)[8k + j] = x[8(n-1-k) + j]` with `n = w/8` (R42), `w` a multiple of 8. -/
def reverseByteOrder {w : Nat} (x : BitVec w) : BitVec w :=
  ofBits (fun i => x.getLsbD (8 * (w / 8 - 1 - i / 8) + i % 8)) w

/-- `complement(x, w) = (1 << w) - 1 - x` (R43). -/
def complement {w : Nat} (x : BitVec w) : BitVec w := BitVec.ofNat w (2 ^ w - 1 - x.toNat)

/-- The template of R44: halted, then too wide, otherwise `XOUT <- zext_32(f(din, w))` (30_encoding.md R37). -/
def transformCommand (w : Nat) (f : BitVec w → BitVec w) (din : Word) (s : State) : State :=
  withOperand w din (driveXout ((f (wordOperand w din)).setWidth 32)) s

/-- REVB.8 (R45). -/
def execRevb8 (din : Word) (s : State) : Host.Outcome State Fault Refusal := .next (transformCommand 8 reverseBits din s)

/-- REVB.16 (R45). -/
def execRevb16 (din : Word) (s : State) : Host.Outcome State Fault Refusal := .next (transformCommand 16 reverseBits din s)

/-- REVB.32 (R45). -/
def execRevb32 (din : Word) (s : State) : Host.Outcome State Fault Refusal := .next (transformCommand 32 reverseBits din s)

/-- REVPB.8 (R46). -/
def execRevpb8 (din : Word) (s : State) : Host.Outcome State Fault Refusal :=
  .next (transformCommand 8 reverseBitsPerByte din s)

/-- REVPB.16 (R46). -/
def execRevpb16 (din : Word) (s : State) : Host.Outcome State Fault Refusal :=
  .next (transformCommand 16 reverseBitsPerByte din s)

/-- REVPB.32 (R46). -/
def execRevpb32 (din : Word) (s : State) : Host.Outcome State Fault Refusal :=
  .next (transformCommand 32 reverseBitsPerByte din s)

/-- SWAPB.8 (R47). -/
def execSwapb8 (din : Word) (s : State) : Host.Outcome State Fault Refusal :=
  .next (transformCommand 8 reverseByteOrder din s)

/-- SWAPB.16 (R47). -/
def execSwapb16 (din : Word) (s : State) : Host.Outcome State Fault Refusal :=
  .next (transformCommand 16 reverseByteOrder din s)

/-- SWAPB.32 (R47). -/
def execSwapb32 (din : Word) (s : State) : Host.Outcome State Fault Refusal :=
  .next (transformCommand 32 reverseByteOrder din s)

/-- CPL.8 (R48). -/
def execCpl8 (din : Word) (s : State) : Host.Outcome State Fault Refusal := .next (transformCommand 8 complement din s)

/-- CPL.16 (R48). -/
def execCpl16 (din : Word) (s : State) : Host.Outcome State Fault Refusal := .next (transformCommand 16 complement din s)

/-- CPL.32 (R48). -/
def execCpl32 (din : Word) (s : State) : Host.Outcome State Fault Refusal := .next (transformCommand 32 complement din s)

end Sys2Proof.Machine
end

