-- ==== Sys2Proof/Machine/Conventions.lean ====
section
/-! DEFINITION. The four conventions as functions of a message (43_conventions.md R70 to R74), their per-byte pieces (R75,
R76) with the output `RESULT`, and the commands NOP, INIT, DATAS, DATAP, FINS, FINP (R79 to R84). -/

namespace Sys2Proof.Machine

/-! ### The conventions as functions of a message -/

/-- `vanilla(M)` (R71), the serial engine behind it. -/
def vanilla (m : List Byte) : Word := serialCompute m

/-- `vanilla(M)` (R71) with the parallel engine behind it: the layer applies the pad first (90_conflicts.md C4). -/
def vanillaParallel (m : List Byte) : Word := parallelCompute (pad m)

/-- `complement_first_4(M)` (R72): the bytes at positions 0 to 3 that exist, complemented; the length is kept. -/
def complementFirst4 (m : List Byte) : List Byte := m.mapIdx fun i d => if i < 4 then complement d else d

/-- `invert(M)` (R72). -/
def invert (m : List Byte) : Word := complement (vanilla (complementFirst4 m))

/-- `bit_reverse_invert(M)` (R73). -/
def bitReverseInvert (m : List Byte) : Word := reverseBits (invert (m.map reverseBits))

/-- `bytewise_bit_reverse_invert(M)` (R74). -/
def bytewiseBitReverseInvert (m : List Byte) : Word := reverseByteOrder (bitReverseInvert m)

/-- `conv_value(c, M)` (R70). -/
def convValue (c : Convention) (m : List Byte) : Word :=
  match c.toNat with
  | 0 => vanilla m
  | 1 => invert m
  | 2 => bitReverseInvert m
  | _ => bytewiseBitReverseInvert m

/-! ### The conventions cut into per-byte pieces -/

/-- `itf(c, len, d)` (R75), the input transform of one message byte. -/
def itf (c : Convention) (len : Nat) (d : Byte) : Byte :=
  let d1 := if 2 ≤ c.toNat then reverseBits d else d
  if 1 ≤ c.toNat ∧ len < 4 then complement d1 else d1

/-- `otf(c, r)` (R76), the output transform. -/
def otf (c : Convention) (r : Word) : Word :=
  let r1 := if 1 ≤ c.toNat then complement r else r
  let r2 := if 2 ≤ c.toNat then reverseBits r1 else r1
  if c.toNat = 3 then reverseByteOrder r2 else r2

/-- The output `RESULT[31:0] = otf(CONV, CRC)`, valid at all times (10_state.md R15). -/
def State.result (s : State) : Word := otf s.conv s.crc

/-! ### The commands -/

/-- NOP (R79): nothing is written; `XOUT = 0`. -/
def execNop (s : State) : Host.Outcome State Fault Refusal := .next (whenRunning (fun s => { s with xout := 0 }) s)

/-- INIT (R80): `CRC <- 0; LEN <- 0; CONV <- conv`. -/
def execInit (conv : Convention) (s : State) : Host.Outcome State Fault Refusal :=
  .next (whenRunning (fun s => { s with crc := Config.initialCrc, len := 0, conv := conv, xout := 0 }) s)

/-- What DATAS and DATAP share (R81, R82): the input transform, one byte step of the engine, and the count. -/
def dataByte (byteStep : Word → Byte → Word) (din : Word) (s : State) : State :=
  { writeCrc (byteStep s.crc (itf s.conv s.len.val (byteOperand din))) s with len := countByte s.len }

/-- DATAS (R81): the serial byte loop. -/
def execDatas (din : Word) (s : State) : Host.Outcome State Fault Refusal :=
  .next (withOperand 8 din (dataByte sbyte din) s)

/-- DATAP (R82): one parallel byte step. -/
def execDatap (din : Word) (s : State) : Host.Outcome State Fault Refusal :=
  .next (withOperand 8 din (dataByte (fun r d => pstep d r) din) s)

/-- What FINS and FINP share (R83, R84): the four pad bytes that `LEN` selects, through the engine. -/
def padAndFinish (byteStep : Word → Byte → Word) (s : State) : State :=
  writeCrc ((padBytes s.len.val).foldl byteStep s.crc) s

/-- FINS (R83): 32 serial bit steps. -/
def execFins (s : State) : Host.Outcome State Fault Refusal := .next (whenRunning (padAndFinish sbyte) s)

/-- FINP (R84): four parallel byte steps. -/
def execFinp (s : State) : Host.Outcome State Fault Refusal :=
  .next (whenRunning (padAndFinish fun r d => pstep d r) s)

end Sys2Proof.Machine
end

