-- ==== Sys2Proof/Machine/Dispatch.lean ====
section
/-! DEFINITION. One arm per command, each a direct call of its meaning. -/

namespace Sys2Proof.Machine

def exec (i : Instr) (s : State) : Host.Outcome State Fault Refusal :=
  match i with
  | .nop => Sys2Proof.Machine.execNop s
  | .init conv => Sys2Proof.Machine.execInit conv s
  | .sbit din => Sys2Proof.Machine.execSbit din s
  | .sbyte din => Sys2Proof.Machine.execSbyte din s
  | .pbyte din => Sys2Proof.Machine.execPbyte din s
  | .datas din => Sys2Proof.Machine.execDatas din s
  | .datap din => Sys2Proof.Machine.execDatap din s
  | .fins => Sys2Proof.Machine.execFins s
  | .finp => Sys2Proof.Machine.execFinp s
  | .revb8 din => Sys2Proof.Machine.execRevb8 din s
  | .revb16 din => Sys2Proof.Machine.execRevb16 din s
  | .revb32 din => Sys2Proof.Machine.execRevb32 din s
  | .revpb8 din => Sys2Proof.Machine.execRevpb8 din s
  | .revpb16 din => Sys2Proof.Machine.execRevpb16 din s
  | .revpb32 din => Sys2Proof.Machine.execRevpb32 din s
  | .swapb8 din => Sys2Proof.Machine.execSwapb8 din s
  | .swapb16 din => Sys2Proof.Machine.execSwapb16 din s
  | .swapb32 din => Sys2Proof.Machine.execSwapb32 din s
  | .cpl8 din => Sys2Proof.Machine.execCpl8 din s
  | .cpl16 din => Sys2Proof.Machine.execCpl16 din s
  | .cpl32 din => Sys2Proof.Machine.execCpl32 din s

end Sys2Proof.Machine
end

