-- ==== Sys2Proof/Machine/Present.lean ====
section
/-! DEFINITION. What the block does with one command word the host presents: the order of checks of 60_exceptions.md R91. -/

namespace Sys2Proof.Machine

/-- (1) while halted the word is ignored, legal or not; (2) a word that does not decode raises IllegalCommand; (3) and (4),
the width check and the execution, are the command's own (60_exceptions.md R91). -/
def presentCommand (cw : CommandWord) (s : State) : Host.Outcome State Fault Refusal :=
  if s.Halted then .next (ignoreCommand s)
  else
    match decode cw with
    | .ok i => exec i s
    | .error _ => .next (takeFault .illegalCommand s)

/-- One host input: a command word, or reset (70_reset_and_hazards.md R100, R109). -/
def presentInput (input : HostInput) (s : State) : Host.Outcome State Fault Refusal :=
  match input with
  | .command cw => presentCommand cw s
  | .reset => .next (applyReset s)

end Sys2Proof.Machine
end

