-- ==== Sys2Proof/Machine/Step.lean ====
section
/-! DEFINITION. One step: the block takes the oldest host input and handles it to completion (20_memory.md R27); with no
input the state holds (70_reset_and_hazards.md R109). -/

namespace Sys2Proof.Machine

/-- The step function (10_state.md R17, with the command taken from the host's stream; log 1). -/
def step (s : State) : Host.Outcome State Fault Refusal :=
  match takeInput s with
  | none => .next (idle s)
  | some (input, s') => presentInput input s'

/-- The host presents this instruction next: its word stands at the head of the stream, where `step` takes its next
command from. -/
def State.withFetchWord (s : State) (nbits w : Nat) : State := pushCommand (commandWordOfTable nbits w) s

end Sys2Proof.Machine
end

