-- ==== Sys2Proof/Machine/Division.lean ====
section
/-! DEFINITION. Reading words and bit sequences as polynomials over GF(2) (41_serial_engine.md R52 item 4, R55;
20_memory.md R21). Only statements use this file; the machine does not (log 13). -/

namespace Sys2Proof.Machine

open Polynomial

/-- The coefficient of a bit. -/
def bitCoefficient (b : Bool) : ZMod 2 := if b then 1 else 0

/-- `x[w-1] X^(w-1) + ... + x[0]` (R52 item 4). -/
noncomputable def polyOfWord {w : Nat} (x : BitVec w) : (ZMod 2)[X] :=
  ∑ i ∈ Finset.range w, C (bitCoefficient (x.getLsbD i)) * X ^ i

/-- A bit sequence `s0, s1, ..., s(n-1)` in feed order is `s0 X^(n-1) + s1 X^(n-2) + ... + s(n-1)` (20_memory.md R21). -/
noncomputable def polyOfBits (bits : List Bool) : (ZMod 2)[X] :=
  ∑ i ∈ Finset.range bits.length, C (bitCoefficient (bits.getD i false)) * X ^ (bits.length - 1 - i)

/-- The generator `G`, read from the 33-bit constant (R52 item 4). -/
noncomputable def generator : (ZMod 2)[X] := polyOfWord Config.poly33

end Sys2Proof.Machine
end

