-- ==== Sys2Proof/Machine/Oracle.lean ====
section
/-! DEFINITION. Functions the statements compare the block with. NONE IS PART OF THE MACHINE: the Reference Oracle is
outside the hardware (00_scope.md R6) and no file of the machine imports this one (log 10). -/

namespace Sys2Proof.Machine

/-- One byte of the usual formulation of 43_conventions.md R87, "where the message is XORed into the top of the register":
the byte meets the top byte of the register, then 8 bit steps with input 0. -/
def directByte (r : Word) (d : Byte) : Word :=
  (List.replicate 8 false).foldl sstep (r ^^^ (d ++ (0#24 : BitVec 24)))

/-- The CRC of a message in that formulation, from an initial register value, without padding. -/
def directCrc (initial : Word) (m : List Byte) : Word := m.foldl directByte initial

/-- One bit step of the reflected form: shift right, and XOR the reflected polynomial when a one leaves at bit 0. -/
def reflectedStep (r : Word) : Word := if r.getLsbD 0 then (r >>> 1) ^^^ Config.polyReflected else r >>> 1

/-- One byte of the reflected form: the byte meets the low byte of the register, then 8 bit steps. -/
def reflectedByte (r : Word) (d : Byte) : Word := reflectedStep^[8] (r ^^^ d.setWidth 32)

/-- `REF(M)`, the standard reflected CRC-32 (43_conventions.md R86): initial value `0xFFFFFFFF`, reflected polynomial, final
complement (log 10). -/
def referenceCrc (m : List Byte) : Word := complement (m.foldl reflectedByte 0xFFFFFFFF#32)

end Sys2Proof.Machine
end

