-- ==== Sys2Proof/Safety.lean ====
section
/-! DEFINITION. The terms of the statements about runs: runs and which of them are successful (70_reset_and_hazards.md R108),
the message bracket (43_conventions.md R78), and what a state says of the message in progress (10_state.md R12,
43_conventions.md R78). -/

namespace Sys2Proof.Machine

/-- The host presents the inputs in order, starting in `s`, and nothing else: as many steps as there are inputs
(20_memory.md R27). -/
def runInputs (inputs : List HostInput) (s : State) : Host.Outcome State Fault Refusal :=
  Host.Core.run Sys2Proof.core inputs.length { s with pending := inputs }

/-- The host input that presents a command. -/
def presentInstr (i : Instr) : HostInput := .command (encode i)

/-- The host presents the commands in order, starting in `s`. -/
def runInstrs (is : List Instr) (s : State) : Host.Outcome State Fault Refusal := runInputs (is.map presentInstr) s

/-- A run is successful when its final state has `FAULT = 0` (R108); a run that ends halted has failed, whatever `RESULT`
shows (60_exceptions.md R93). -/
abbrev Successful (final : State) : Prop := final.fault = .noFault

/-- `RESULT` at the end of an outcome that is a state. -/
def resultAfter : Host.Outcome State Fault Refusal → Option Word
  | .next t => some t.result
  | .fault _ => none
  | .refused _ => none

/-! ### The message bracket (43_conventions.md R78) -/

/-- The commands that write no register: NOP and the transform commands (20_memory.md R26). -/
def writesNoRegister : Instr → Bool
  | .nop => true
  | .init _ => false
  | .sbit _ => false
  | .sbyte _ => false
  | .pbyte _ => false
  | .datas _ => false
  | .datap _ => false
  | .fins => false
  | .finp => false
  | .revb8 _ => true
  | .revb16 _ => true
  | .revb32 _ => true
  | .revpb8 _ => true
  | .revpb16 _ => true
  | .revpb32 _ => true
  | .swapb8 _ => true
  | .swapb16 _ => true
  | .swapb32 _ => true
  | .cpl8 _ => true
  | .cpl16 _ => true
  | .cpl32 _ => true

/-- What may stand between INIT and FIN: a message byte through either engine, or a command that writes no register. -/
inductive BracketItem where
  | serialByte (d : Byte)
  | parallelByte (d : Byte)
  | between (i : Instr)
deriving DecidableEq, Repr

/-- A command in between writes no register and does not fault (R78: "may be interleaved anywhere in the bracket"). -/
def BracketItem.legal : BracketItem → Bool
  | .serialByte _ => true
  | .parallelByte _ => true
  | .between i => writesNoRegister i && i.wellFormed

/-- The command of an item. -/
def BracketItem.instr : BracketItem → Instr
  | .serialByte d => .datas (d.setWidth 32)
  | .parallelByte d => .datap (d.setWidth 32)
  | .between i => i

/-- The message byte an item carries, if any. -/
def BracketItem.byte? : BracketItem → Option Byte
  | .serialByte d => some d
  | .parallelByte d => some d
  | .between _ => none

/-- The message of a bracket. -/
def messageOf (items : List BracketItem) : List Byte := items.filterMap BracketItem.byte?

/-- FINP or FINS. -/
def finish (parallel : Bool) : Instr := if parallel then .finp else .fins

/-- `INIT c; DATAx m0; ...; FINx`, each `x` chosen freely, with commands that write no register in between (R78). -/
def bracket (c : Convention) (items : List BracketItem) (parallelFin : Bool) : List Instr :=
  .init c :: (items.map BracketItem.instr ++ [finish parallelFin])

/-! ### The message in progress -/

/-- The state is that of an open bracket whose data commands so far carried `m`: the registers are what the rules of INIT,
DATAS and DATAP make of `m` (R78). -/
structure MessageOpen (s : State) (m : List Byte) : Prop where
  running : s.Running
  len : s.len.val = min m.length 4
  crc : s.crc = (m.mapIdx fun i d => itf s.conv i d).foldl sbyte 0

/-- What one command makes of the message in progress: INIT opens the empty message, a data command adds its byte, NOP and
the transforms leave it, and every other command, and every fault, closes it (43_conventions.md R78, R88;
70_reset_and_hazards.md R104). -/
def messageAfterCommand (i : Instr) (m : Option (List Byte)) : Option (List Byte) :=
  if i.wellFormed then
    match i with
    | .init _ => some []
    | .datas din => m.map (· ++ [din.setWidth 8])
    | .datap din => m.map (· ++ [din.setWidth 8])
    | i => if writesNoRegister i then m else none
  else none

/-- What one step makes of the message in progress; reset opens the empty Vanilla message (70_reset_and_hazards.md R100). -/
def messageAfterStep (s : State) (m : Option (List Byte)) : Option (List Byte) :=
  match s.pending with
  | [] => m
  | .reset :: _ => some []
  | .command cw :: _ =>
    if s.Halted then none
    else
      match decode cw with
      | .ok i => messageAfterCommand i m
      | .error _ => none

/-- The ghost message `m` describes the state: if a message is open, the registers are its registers. -/
def Tracks (s : State) (m : Option (List Byte)) : Prop := ∀ msg, m = some msg → MessageOpen s msg

/-- The number of DATAS and DATAP commands executed without fault since the last INIT or reset, counted without bound
(10_state.md R12), after one input to `s` with the count `n` before it. -/
def countAfterInput (input : HostInput) (s : State) (n : Nat) : Nat :=
  match input with
  | .reset => 0
  | .command cw =>
    if s.Halted then n
    else
      match decode cw with
      | .ok (.init _) => 0
      | .ok (.datas din) => if din.toNat < 2 ^ 8 then n + 1 else n
      | .ok (.datap din) => if din.toNat < 2 ^ 8 then n + 1 else n
      | _ => n

end Sys2Proof.Machine
end

