-- ==== Sys2Proof/Certificates/Slice0/Obligations.lean ====
section
/-! DEFINITION. The statements for the provers. Each docstring names the rule of the spec it formalises, or, where a clause
is the model's own choice, the log entry. `.next { s with … }` says the whole frame: every register, output and input of
the state that is not named is unchanged. -/

open Sys2Proof Sys2Proof.Machine

/-! ### Reset, the host's stream, and the order of checks -/

/-- 70_reset_and_hazards.md R100. Reset applied between commands sets every register and output to its reset value, these
are the values of `State.reset`, the state equals the one after INIT 0 from a running state, and nothing but reset makes a
halted block run. (`pending` is the host's stream, no register; that it is kept is the model's own, log 1.) -/
def Obligations.ResetClearsEverything : Prop :=
  (∀ s : State, presentInput .reset s = .next { State.reset with pending := s.pending }) ∧
  (State.reset.crc = 0 ∧ State.reset.len = 0 ∧ State.reset.conv = 0 ∧ State.reset.fault = .noFault ∧
    State.reset.result = 0 ∧ State.reset.faultOut = 0 ∧ State.reset.xout = 0) ∧
  (∀ s : State, s.Running → presentInput .reset s = exec (.init 0) s) ∧
  (∀ (input : HostInput) (s t : State), s.Halted → presentInput input s = .next t → t.Running → input = .reset)

/-- THE MODEL'S CHOICE, log 1 and log 3 (70_reset_and_hazards.md section 5: the host may "present nothing (the state
holds)"): with no input every register holds and `XOUT` is 0. -/
def Obligations.IdleHoldsTheState : Prop :=
  ∀ s : State, s.pending = [] → step s = .next { s with xout := 0 }

/-- A step handles the oldest input, and when it is a word that decodes it runs the decoded command (30_encoding.md
section 1), in the state from which the input has been taken; that the input is taken from the head of `pending` is the
model's choice, log 1. It holds while halted too, since every command then has the effect of an ignored one. -/
def Obligations.StepRunsDecodedCommand : Prop :=
  (∀ (s : State) (input : HostInput) (rest : List HostInput), s.pending = input :: rest →
    step s = presentInput input { s with pending := rest }) ∧
  (∀ (s : State) (cw : CommandWord) (rest : List HostInput) (i : Instr),
    s.pending = .command cw :: rest → decode cw = .ok i → step s = exec i { s with pending := rest })

/-- The word placed for the next fetch is the one the next step runs (the model's own, log 1 and log 12). -/
def Obligations.PlacedWordRunsNext : Prop :=
  ∀ (s : State) (i : Instr), step (s.withFetchWord 40 (encode i).toNat) = exec i s

/-- 60_exceptions.md section 7: the step function is total, for every state and every input it returns a next state; no step
stops with a fault or a refusal. -/
def Obligations.EveryStepAnswersNext : Prop :=
  ∀ s : State, ∃ t : State, step s = .next t

/-- 20_memory.md section 6: the state after a sequence of inputs is the fold of the step function over it: what the block
makes of `a ++ b` is what it makes of `b` in the state that `a` left. -/
def Obligations.RunsComposeInOrder : Prop :=
  ∀ (a b : List HostInput) (s : State), ∃ t u : State,
    runInputs a s = .next t ∧ runInputs b t = .next u ∧ runInputs (a ++ b) s = .next u ∧ u.pending = []

/-- 60_exceptions.md R91: the order of the checks, and the first failure only is reported. -/
def Obligations.ChecksInOrder : Prop :=
  ∀ (s : State) (cw : CommandWord),
    (s.Halted → presentCommand cw s = .next { s with xout := 0 }) ∧
    (∀ e, s.Running → decode cw = .error e → presentCommand cw s = .next { s with fault := .illegalCommand, xout := 0 }) ∧
    (∀ i, s.Running → decode cw = .ok i → i.wellFormed = false →
      presentCommand cw s = .next { s with fault := .widthViolation, xout := 0 }) ∧
    (∀ i, s.Running → decode cw = .ok i → i.wellFormed = true →
      presentCommand cw s = exec i s ∧ ∃ t, exec i s = .next t ∧ t.fault = .noFault) ∧
    (cw = 0x2400000005#40 → s.Running → presentCommand cw s = .next { s with fault := .illegalCommand, xout := 0 })

/-! ### Faults -/

/-- 60_exceptions.md R90: the two causes, their codes, and nothing else faults. -/
def Obligations.FaultCausesExhaustive : Prop :=
  (FaultCause.noFault.code = 0 ∧ FaultCause.illegalCommand.code = 1 ∧ FaultCause.widthViolation.code = 2) ∧
  (∀ (input : HostInput) (s t : State), s.Running → presentInput input s = .next t →
    (t.fault = .illegalCommand ↔ ∃ cw e, input = .command cw ∧ decode cw = .error e) ∧
    (t.fault = .widthViolation ↔
      ∃ cw i din, input = .command cw ∧ decode cw = .ok i ∧ i.operand? = some din ∧ 2 ^ i.operandWidth ≤ din.toNat)) ∧
  (∀ i : Instr, i.operand? = none ↔ i = .nop ∨ (∃ c, i = .init c) ∨ i = .fins ∨ i = .finp)

/-- 30_encoding.md R38, with the operand widths of R36: an operand that does not fit raises WidthViolation and nothing but
`FAULT` is written; one that fits does not fault; at width 32 every operand fits. -/
def Obligations.OverwideOperandsFault : Prop :=
  (∀ (i : Instr) (din : Word) (s : State), s.Running → i.operand? = some din → 2 ^ i.operandWidth ≤ din.toNat →
    exec i s = .next { s with fault := .widthViolation, xout := 0 }) ∧
  (∀ (i : Instr) (din : Word) (s : State), s.Running → i.operand? = some din → din.toNat < 2 ^ i.operandWidth →
    ∃ t, exec i s = .next t ∧ t.fault = .noFault) ∧
  (∀ din : Word, (Instr.sbit din).operandWidth = 1 ∧ (Instr.sbyte din).operandWidth = 8 ∧
    (Instr.pbyte din).operandWidth = 8 ∧ (Instr.datas din).operandWidth = 8 ∧ (Instr.datap din).operandWidth = 8) ∧
  (∀ din : Word, ∀ i ∈ [Instr.revb8 din, .revpb8 din, .swapb8 din, .cpl8 din], i.operandWidth = 8) ∧
  (∀ din : Word, ∀ i ∈ [Instr.revb16 din, .revpb16 din, .swapb16 din, .cpl16 din], i.operandWidth = 16) ∧
  (∀ din : Word, ∀ i ∈ [Instr.revb32 din, .revpb32 din, .swapb32 din, .cpl32 din],
    i.operandWidth = 32 ∧ i.wellFormed = true)

/-- 60_exceptions.md R92: a fault writes its code and nothing else; `XOUT = 0`, `RESULT` is unchanged, `FAULTOUT` shows the
code. -/
def Obligations.FaultsArePrecise : Prop :=
  ∀ (input : HostInput) (s t : State), s.Running → presentInput input s = .next t → t.Halted →
    t = { s with fault := t.fault, xout := 0 } ∧ t.result = s.result ∧ t.faultOut = t.fault.code ∧
      (t.fault = .illegalCommand ∧ t.faultOut = 1 ∨ t.fault = .widthViolation ∧ t.faultOut = 2)

/-- 60_exceptions.md R93: while halted every command word, legal or not, is ignored; the outputs hold, and a halted state is
never the end of a successful run. -/
def Obligations.HaltedIgnoresEveryWord : Prop :=
  ∀ (s : State) (cw : CommandWord), s.Halted →
    ∃ t, presentCommand cw s = .next t ∧ t.crc = s.crc ∧ t.len = s.len ∧ t.conv = s.conv ∧ t.fault = s.fault ∧
      t.xout = 0 ∧ t.result = s.result ∧ t.faultOut = s.faultOut ∧ t.pending = s.pending ∧ ¬ Successful t

/-- 60_exceptions.md R94: only reset leaves the halted state, no command clears or overwrites the first cause, and nothing of
the failed message survives reset. -/
def Obligations.OnlyResetLeavesHalt : Prop :=
  ∀ (input : HostInput) (s t : State), s.Halted → presentInput input s = .next t →
    (input = .reset ∧ t = { State.reset with pending := s.pending }) ∨
    (input ≠ .reset ∧ t = { s with xout := 0 } ∧ t.Halted ∧ t.fault = s.fault)

/-! ### Encoding -/

/-- Decode and encode agree (30_encoding.md section 3): no bit of any operand of any command is dropped, well-formed or not;
so do the words as the opcode table numbers them (log 12). -/
def Obligations.DecodeEncodeRoundTrip : Prop :=
  ∀ i : Instr, decode (encode i) = .ok i ∧ decodeTableWord 40 (encode i).toNat = some i

/-- The other direction (30_encoding.md section 4): a word that decodes is the encoding of what it decodes to, so no two
words are one command. -/
def Obligations.EncodeInvertsDecode : Prop :=
  ∀ (cw : CommandWord) (i : Instr), decode cw = .ok i → encode i = cw

/-- 30_encoding.md R33 and R35: the decoding procedure and the opcode map say the same thing: a word decodes to a command
exactly when it selects that command's row, and then no other row; operands are the fields the mask leaves free. -/
def Obligations.DecoderFollowsOpcodeMap : Prop :=
  opcodeMap.length = 21 ∧
  ∀ cw : CommandWord,
    match decode cw with
    | .ok i =>
      (∃ r ∈ opcodeMap, r.selects cw = true ∧ r.mnemonic = i.mnemonic ∧
        ∀ r' ∈ opcodeMap, r'.selects cw = true → r' = r) ∧
      (∀ din, i.operand? = some din → din = cw.extractLsb' 0 32) ∧ (∀ c, i = .init c → c = cw.extractLsb' 34 2)
    | .error _ => ∀ r ∈ opcodeMap, r.selects cw = false

/-- 30_encoding.md R34: the illegal words, exhaustively, and the fault they raise. -/
def Obligations.IllegalWordsExhaustive : Prop :=
  ∀ cw : CommandWord,
    let op := (opField cw).toNat
    let illegal : Prop :=
      op ∈ [13, 14, 15] ∨ rsvField cw ≠ 0 ∨ (op ∈ [0, 2, 3, 4, 5, 6, 7, 8] ∧ selField cw ≠ 0) ∨
        (op ∈ [9, 10, 11, 12] ∧ selField cw = 3) ∨ (op ∈ [0, 1, 7, 8] ∧ dinField cw ≠ 0)
    ((∃ e, decode cw = .error e) ↔ illegal) ∧
    ∀ s : State, s.Running → illegal → presentCommand cw s = .next { s with fault := .illegalCommand, xout := 0 }

/-- Words written out from the spec's encodings (43_conventions.md, 41_serial_engine.md, 42_parallel_engine.md,
40_transforms.md, the worked examples) decode to the commands they stand for. -/
def Obligations.WorkedExampleWordsDecode : Prop :=
  decode 0x0000000000#40 = .ok .nop ∧ decode 0x1C00000000#40 = .ok (.init 3) ∧
  decode 0x2000000001#40 = .ok (.sbit 1) ∧ decode 0x300000009A#40 = .ok (.sbyte 0x9A) ∧
  decode 0x400000009A#40 = .ok (.pbyte 0x9A) ∧ decode 0x5000000061#40 = .ok (.datas 0x61) ∧
  decode 0x7000000000#40 = .ok .fins ∧ decode 0x8000000000#40 = .ok .finp ∧
  decode 0x9400001234#40 = .ok (.revb16 0x1234) ∧ decode 0xA812345678#40 = .ok (.revpb32 0x12345678) ∧
  decode 0xB812345678#40 = .ok (.swapb32 0x12345678) ∧ decode 0xC400001234#40 = .ok (.cpl16 0x1234)

/-! ### The commands -/

/-- 43_conventions.md R79, with the fault of a word that is almost a NOP. -/
def Obligations.NopWritesNothing : Prop :=
  (decode 0x0000000000#40 = .ok .nop ∧ ∀ cw : CommandWord, decode cw = .ok .nop → cw = 0) ∧
  (∀ (cw : CommandWord) (s : State), opField cw = 0 → selField cw ≠ 0 ∨ rsvField cw ≠ 0 ∨ dinField cw ≠ 0 → s.Running →
    presentCommand cw s = .next { s with fault := .illegalCommand, xout := 0 }) ∧
  ∀ s : State, exec .nop s = .next { s with xout := 0 }

/-- 43_conventions.md R80. -/
def Obligations.InitStartsMessage : Prop :=
  (∀ c : Convention, decode (0x1000000000#40 + c.setWidth 40 <<< 34) = .ok (.init c)) ∧
  (∀ cw : CommandWord, opField cw = 1 → rsvField cw ≠ 0 ∨ dinField cw ≠ 0 → ∃ e, decode cw = .error e) ∧
  (∀ (c : Convention) (s : State), s.Running →
    exec (.init c) s = .next { s with crc := 0, len := 0, conv := c, xout := 0 }) ∧
  (∀ (c : Convention) (s t : State), s.Running → exec (.init c) s = .next t →
    t.result = (if c = 0 then 0x00000000#32 else 0xFFFFFFFF#32) ∧ exec (.init c) t = .next t) ∧
  (∀ (c : Convention) (s : State), s.Halted → exec (.init c) s = .next { s with xout := 0 })

/-- 41_serial_engine.md R56, the bit step in its 32-bit form (R50). -/
def Obligations.SbitShiftsOneBit : Prop :=
  (∀ din : Word, decode (0x2000000000#40 + din.setWidth 40) = .ok (.sbit din)) ∧
  (∀ cw : CommandWord, opField cw = 2 → selField cw ≠ 0 ∨ rsvField cw ≠ 0 → ∃ e, decode cw = .error e) ∧
  (∀ (din : Word) (s : State), s.Running → din.toNat < 2 →
    exec (.sbit din) s =
      .next { s with crc := (s.crc <<< 1 ||| din) ^^^ (if s.crc.getLsbD 31 then 0x04C11DB7#32 else 0), xout := 0 }) ∧
  (∀ (din : Word) (s : State), s.Running → 2 ≤ din.toNat →
    exec (.sbit din) s = .next { s with fault := .widthViolation, xout := 0 }) ∧
  (∀ (din : Word) (s : State), s.Halted → exec (.sbit din) s = .next { s with xout := 0 })

/-- 41_serial_engine.md R57 with R51: eight bit steps, most-significant bit first; the same `CRC` as eight SBITs and as
PBYTE. -/
def Obligations.SbyteRunsEightBitSteps : Prop :=
  (∀ din : Word, decode (0x3000000000#40 + din.setWidth 40) = .ok (.sbyte din)) ∧
  (∀ cw : CommandWord, opField cw = 3 → selField cw ≠ 0 ∨ rsvField cw ≠ 0 → ∃ e, decode cw = .error e) ∧
  (∀ (din : Word) (s : State), s.Running → din.toNat < 256 →
    exec (.sbyte din) s =
      .next { s with
        crc := sstep (sstep (sstep (sstep (sstep (sstep (sstep (sstep s.crc (din.getLsbD 7)) (din.getLsbD 6))
          (din.getLsbD 5)) (din.getLsbD 4)) (din.getLsbD 3)) (din.getLsbD 2)) (din.getLsbD 1)) (din.getLsbD 0),
        xout := 0 }) ∧
  (∀ (d : Byte) (s : State), s.Running → ∃ t, runInstrs [.sbyte (d.setWidth 32)] s = .next t ∧
    runInstrs [.sbit (byteBitOperand d 7), .sbit (byteBitOperand d 6), .sbit (byteBitOperand d 5),
      .sbit (byteBitOperand d 4), .sbit (byteBitOperand d 3), .sbit (byteBitOperand d 2), .sbit (byteBitOperand d 1),
      .sbit (byteBitOperand d 0)] s = .next t ∧
    runInstrs [.pbyte (d.setWidth 32)] s = .next t) ∧
  (∀ (din : Word) (s : State), s.Running → 256 ≤ din.toNat →
    exec (.sbyte din) s = .next { s with fault := .widthViolation, xout := 0 }) ∧
  (∀ (din : Word) (s : State), s.Halted → exec (.sbyte din) s = .next { s with xout := 0 })

/-- 42_parallel_engine.md R67, with the corner case of a clear top byte. -/
def Obligations.PbyteRunsXorEquations : Prop :=
  (∀ din : Word, decode (0x4000000000#40 + din.setWidth 40) = .ok (.pbyte din)) ∧
  (∀ cw : CommandWord, opField cw = 4 → selField cw ≠ 0 ∨ rsvField cw ≠ 0 → ∃ e, decode cw = .error e) ∧
  (∀ (din : Word) (s : State), s.Running → din.toNat < 256 →
    exec (.pbyte din) s = .next { s with crc := pstep (din.setWidth 8) s.crc, xout := 0 }) ∧
  (∀ (din : Word) (s : State), s.Running → din.toNat < 256 → s.crc.toNat < 2 ^ 24 →
    exec (.pbyte din) s = .next { s with crc := s.crc <<< 8 ||| din, xout := 0 }) ∧
  (∀ (din : Word) (s : State), s.Running → din.toNat < 256 → exec (.pbyte din) s = exec (.sbyte din) s) ∧
  (∀ (din : Word) (s : State), s.Running → 256 ≤ din.toNat →
    exec (.pbyte din) s = .next { s with fault := .widthViolation, xout := 0 }) ∧
  (∀ (din : Word) (s : State), s.Halted → exec (.pbyte din) s = .next { s with xout := 0 })

/-- 43_conventions.md R81, with the corner cases: the fifth and later bytes are not complemented, and under Vanilla DATAS is
SBYTE and a count. -/
def Obligations.DatasDividesMessageByte : Prop :=
  (∀ din : Word, decode (0x5000000000#40 + din.setWidth 40) = .ok (.datas din)) ∧
  (∀ cw : CommandWord, opField cw = 5 → selField cw ≠ 0 ∨ rsvField cw ≠ 0 → ∃ e, decode cw = .error e) ∧
  (∀ (din : Word) (s : State), s.Running → din.toNat < 256 → ∃ n : Fin 5, n.val = min (s.len.val + 1) 4 ∧
    exec (.datas din) s =
      .next { s with crc := sbyte s.crc (itf s.conv s.len.val (din.setWidth 8)), len := n, xout := 0 }) ∧
  (∀ (din : Word) (s t : State), s.Running → din.toNat < 256 → s.conv = 0 ∨ (s.conv = 1 ∧ s.len.val = 4) →
    exec (.datas din) s = .next t → exec (.sbyte din) s = .next { t with len := s.len }) ∧
  (∀ (din : Word) (s : State), s.Running → 256 ≤ din.toNat →
    exec (.datas din) s = .next { s with fault := .widthViolation, xout := 0 }) ∧
  (∀ (din : Word) (s : State), s.Halted → exec (.datas din) s = .next { s with xout := 0 })

/-- 43_conventions.md R82: as DATAS, with the parallel byte step, and the same state. -/
def Obligations.DatapDividesMessageByte : Prop :=
  (∀ din : Word, decode (0x6000000000#40 + din.setWidth 40) = .ok (.datap din)) ∧
  (∀ cw : CommandWord, opField cw = 6 → selField cw ≠ 0 ∨ rsvField cw ≠ 0 → ∃ e, decode cw = .error e) ∧
  (∀ (din : Word) (s : State), s.Running → din.toNat < 256 → ∃ n : Fin 5, n.val = min (s.len.val + 1) 4 ∧
    exec (.datap din) s =
      .next { s with crc := pstep (itf s.conv s.len.val (din.setWidth 8)) s.crc, len := n, xout := 0 }) ∧
  (∀ (din : Word) (s : State), exec (.datap din) s = exec (.datas din) s) ∧
  (∀ (din : Word) (s : State), s.Running → 256 ≤ din.toNat →
    exec (.datap din) s = .next { s with fault := .widthViolation, xout := 0 }) ∧
  (∀ (din : Word) (s : State), s.Halted → exec (.datap din) s = .next { s with xout := 0 })

/-- 43_conventions.md R83, the pad bytes spelled out (R77); from an open message `RESULT` becomes the convention's value of
it, and directly after INIT `CRC` becomes `0xFFFFFFFF`. -/
def Obligations.FinsFeedsSerialPad : Prop :=
  (decode 0x7000000000#40 = .ok .fins ∧
    ∀ cw : CommandWord, opField cw = 7 → selField cw ≠ 0 ∨ rsvField cw ≠ 0 ∨ dinField cw ≠ 0 →
      ∃ e, decode cw = .error e) ∧
  (∀ s : State, s.Running →
    exec .fins s =
      .next { s with
        crc := sbyte (sbyte (sbyte (sbyte s.crc (if s.len.val < 4 then 0xFF else 0)) (if s.len.val < 3 then 0xFF else 0))
          (if s.len.val < 2 then 0xFF else 0)) (if s.len.val < 1 then 0xFF else 0),
        xout := 0 }) ∧
  (∀ (s : State) (m : List Byte), MessageOpen s m →
    ∃ t, exec .fins s = .next t ∧ t.result = convValue s.conv m ∧ t.fault = .noFault) ∧
  (∀ s : State, s.Running → s.crc = 0 → s.len = 0 → exec .fins s = .next { s with crc := 0xFFFFFFFF, xout := 0 }) ∧
  (∀ s : State, s.Halted → exec .fins s = .next { s with xout := 0 })

/-- 43_conventions.md R84: as FINS, with four parallel steps, and the same state. -/
def Obligations.FinpFeedsParallelPad : Prop :=
  (decode 0x8000000000#40 = .ok .finp ∧
    ∀ cw : CommandWord, opField cw = 8 → selField cw ≠ 0 ∨ rsvField cw ≠ 0 ∨ dinField cw ≠ 0 →
      ∃ e, decode cw = .error e) ∧
  (∀ s : State, s.Running →
    exec .finp s =
      .next { s with
        crc := pstep (if s.len.val < 1 then 0xFF else 0) (pstep (if s.len.val < 2 then 0xFF else 0)
          (pstep (if s.len.val < 3 then 0xFF else 0) (pstep (if s.len.val < 4 then 0xFF else 0) s.crc))),
        xout := 0 }) ∧
  (∀ s : State, exec .finp s = exec .fins s) ∧
  (∀ (s : State) (m : List Byte), MessageOpen s m →
    ∃ t, exec .finp s = .next t ∧ t.result = convValue s.conv m ∧ t.fault = .noFault) ∧
  (∀ s : State, s.Halted → exec .finp s = .next { s with xout := 0 })

/-- 40_transforms.md R45 with R40 and the template R44, for REVB.8, REVB.16 and REVB.32: bit `i` of `XOUT` is operand bit
`w-1-i` below the width and 0 above it. -/
def Obligations.RevbReversesBits : Prop :=
  (∀ cw : CommandWord, opField cw = 9 → selField cw = 3 ∨ rsvField cw ≠ 0 → ∃ e, decode cw = .error e) ∧
  ∀ p ∈ [(8, 0x9000000000#40, Instr.revb8), (16, 0x9400000000#40, Instr.revb16), (32, 0x9800000000#40, Instr.revb32)],
  ∀ din : Word,
    decode (p.2.1 + din.setWidth 40) = .ok (p.2.2 din) ∧
    (∀ s : State, s.Running → din.toNat < 2 ^ p.1 → ∃ x : Word, exec (p.2.2 din) s = .next { s with xout := x } ∧
      ∀ i, x.getLsbD i = (decide (i < p.1) && din.getLsbD (p.1 - 1 - i))) ∧
    (∀ s : State, s.Running → 2 ^ p.1 ≤ din.toNat →
      exec (p.2.2 din) s = .next { s with fault := .widthViolation, xout := 0 }) ∧
    (∀ s : State, s.Halted → exec (p.2.2 din) s = .next { s with xout := 0 })

/-- 40_transforms.md R46 with R41 and the template R44, for REVPB.8, REVPB.16 and REVPB.32: bit `8k + j` of `XOUT` is operand
bit `8k + 7 - j`. -/
def Obligations.RevpbReversesEachByte : Prop :=
  (∀ cw : CommandWord, opField cw = 10 → selField cw = 3 ∨ rsvField cw ≠ 0 → ∃ e, decode cw = .error e) ∧
  ∀ p ∈ [(8, 0xA000000000#40, Instr.revpb8), (16, 0xA400000000#40, Instr.revpb16), (32, 0xA800000000#40, Instr.revpb32)],
  ∀ din : Word,
    decode (p.2.1 + din.setWidth 40) = .ok (p.2.2 din) ∧
    (∀ s : State, s.Running → din.toNat < 2 ^ p.1 → ∃ x : Word, exec (p.2.2 din) s = .next { s with xout := x } ∧
      x.toNat < 2 ^ p.1 ∧ ∀ k j, 8 * k < p.1 → j < 8 → x.getLsbD (8 * k + j) = din.getLsbD (8 * k + 7 - j)) ∧
    (∀ s : State, s.Running → 2 ^ p.1 ≤ din.toNat →
      exec (p.2.2 din) s = .next { s with fault := .widthViolation, xout := 0 }) ∧
    (∀ s : State, s.Halted → exec (p.2.2 din) s = .next { s with xout := 0 })

/-- 40_transforms.md R47 with R42 and the template R44, for SWAPB.8, SWAPB.16 and SWAPB.32: byte `k` of `XOUT` is operand
byte `n-1-k`, `n = w/8`. -/
def Obligations.SwapbReversesByteOrder : Prop :=
  (∀ cw : CommandWord, opField cw = 11 → selField cw = 3 ∨ rsvField cw ≠ 0 → ∃ e, decode cw = .error e) ∧
  ∀ p ∈ [(8, 0xB000000000#40, Instr.swapb8), (16, 0xB400000000#40, Instr.swapb16), (32, 0xB800000000#40, Instr.swapb32)],
  ∀ din : Word,
    decode (p.2.1 + din.setWidth 40) = .ok (p.2.2 din) ∧
    (∀ s : State, s.Running → din.toNat < 2 ^ p.1 → ∃ x : Word, exec (p.2.2 din) s = .next { s with xout := x } ∧
      x.toNat < 2 ^ p.1 ∧
      ∀ k, k < p.1 / 8 → x.extractLsb' (8 * k) 8 = din.extractLsb' (8 * (p.1 / 8 - 1 - k)) 8) ∧
    (∀ s : State, s.Running → 2 ^ p.1 ≤ din.toNat →
      exec (p.2.2 din) s = .next { s with fault := .widthViolation, xout := 0 }) ∧
    (∀ s : State, s.Halted → exec (p.2.2 din) s = .next { s with xout := 0 })

/-- 40_transforms.md R48 with R43 and the template R44, for CPL.8, CPL.16 and CPL.32: `XOUT` is `2^w - 1 - din`. -/
def Obligations.CplComplementsWithinWidth : Prop :=
  (∀ cw : CommandWord, opField cw = 12 → selField cw = 3 ∨ rsvField cw ≠ 0 → ∃ e, decode cw = .error e) ∧
  ∀ p ∈ [(8, 0xC000000000#40, Instr.cpl8), (16, 0xC400000000#40, Instr.cpl16), (32, 0xC800000000#40, Instr.cpl32)],
  ∀ din : Word,
    decode (p.2.1 + din.setWidth 40) = .ok (p.2.2 din) ∧
    (∀ s : State, s.Running → din.toNat < 2 ^ p.1 → ∃ x : Word, exec (p.2.2 din) s = .next { s with xout := x } ∧
      x.toNat = 2 ^ p.1 - 1 - din.toNat) ∧
    (∀ s : State, s.Running → 2 ^ p.1 ≤ din.toNat →
      exec (p.2.2 din) s = .next { s with fault := .widthViolation, xout := 0 }) ∧
    (∀ s : State, s.Halted → exec (p.2.2 din) s = .next { s with xout := 0 })

/-- 10_state.md section 1 (the column "written by"): which command writes which register, for every command and every state.
No command takes anything from the host's stream (log 1). -/
def Obligations.FrameOfEveryCommand : Prop :=
  ∀ (i : Instr) (s t : State), exec i s = .next t →
    ((∀ c, i ≠ .init c) → t.conv = s.conv) ∧
    ((∀ c, i ≠ .init c) → (∀ d, i ≠ .datas d) → (∀ d, i ≠ .datap d) → t.len = s.len) ∧
    (writesNoRegister i = true → t.crc = s.crc) ∧
    (t.fault = s.fault ∨ (s.Running ∧ i.wellFormed = false ∧ t.fault = .widthViolation)) ∧
    ((writesNoRegister i = false ∨ i = .nop ∨ t.Halted) → t.xout = 0) ∧
    (s.Running → t.Halted → t = { s with fault := t.fault, xout := 0 }) ∧
    t.pending = s.pending

/-- 10_state.md section 6: no output is registered, none is state: what the port `XOUT` showed before a step never matters to
it. (That an idle step shows 0 is log 3.) -/
def Obligations.XoutIsNotState : Prop :=
  ∀ (s : State) (x : Word), step { s with xout := x } = step s

/-- 43_conventions.md section 4 (an inference of the spec from the equality of the byte steps): the engine suffix of a command
never matters, in any state, for operands of any width. -/
def Obligations.EnginesInterchangeable : Prop :=
  ∀ s : State, exec .fins s = exec .finp s ∧
    ∀ din : Word, exec (.datas din) s = exec (.datap din) s ∧ exec (.sbyte din) s = exec (.pbyte din) s

/-! ### The engines -/

/-- 41_serial_engine.md section 1, the equivalent forms (an inference of the spec): the bit step as a 32-bit expression, bit by
bit with the fourteen taps, and as a plain shift when the top bit is clear. -/
def Obligations.SerialStepForms : Prop :=
  ∀ (r : Word) (b : Bool),
    sstep r b = (r <<< 1 ||| (BitVec.ofBool b).setWidth 32) ^^^ (if r.getLsbD 31 then 0x04C11DB7#32 else 0) ∧
    (∀ j, j < 32 → (sstep r b).getLsbD j =
      ((if j = 0 then b else r.getLsbD (j - 1)) ^^
        (decide (j ∈ [0, 1, 2, 4, 5, 7, 8, 10, 11, 12, 16, 22, 23, 26]) && r.getLsbD 31))) ∧
    (r.toNat < 2 ^ 31 → (sstep r b).toNat = 2 * r.toNat + b.toNat)

/-- 41_serial_engine.md section 1 (properties the spec derives): the bit step is linear over GF(2) and can be undone, and a
zero register takes four bytes unchanged, the first in its top byte. -/
def Obligations.SerialStepLinearAndInvertible : Prop :=
  (∀ (r1 r2 : Word) (b1 b2 : Bool), sstep (r1 ^^^ r2) (b1 ^^ b2) = sstep r1 b1 ^^^ sstep r2 b2) ∧
  (∀ b : Bool, Function.Bijective fun r => sstep r b) ∧
  (∀ b0 b1 b2 b3 : Byte, [b0, b1, b2, b3].foldl sbyte 0 = b0 ++ b1 ++ b2 ++ b3)

/-- 41_serial_engine.md section 1 (the polynomial meaning, derived by the spec): one bit step multiplies by X, adds the bit
and reduces modulo the generator. The reading of words as polynomials is log 13. -/
def Obligations.SerialStepReducesModuloGenerator : Prop :=
  ∀ (r : Word) (b : Bool),
    polyOfWord (sstep r b) = (polyOfWord r * Polynomial.X + Polynomial.C (bitCoefficient b)) %ₘ generator

/-- 41_serial_engine.md section 2 (derived by the spec): the serial engine computes the remainder of the padded message by
the generator; from four bytes on it is the remainder of the zero-extended message. The reading of words as polynomials
is log 13. -/
def Obligations.SerialEngineComputesRemainder : Prop :=
  ∀ m : List Byte,
    polyOfWord (serialCompute m) = polyOfBits ((pad m).flatMap feedBits) %ₘ generator ∧
    (4 ≤ m.length →
      polyOfWord (serialCompute m) = (polyOfBits (m.flatMap feedBits) * Polynomial.X ^ 32) %ₘ generator)

/-- 41_serial_engine.md R53: exactly four more bytes, and a position past the message is `0xFF` exactly when it is one of the
first four positions. -/
def Obligations.PaddingRule : Prop :=
  ∀ m : List Byte,
    (pad m).length = m.length + 4 ∧ (∀ k, k < m.length → (pad m)[k]? = m[k]?) ∧
    (∀ k, k < 4 → (pad m)[m.length + k]? = some (if m.length + k < 4 then 0xFF else 0x00)) ∧
    (4 ≤ m.length → pad m = m ++ [0, 0, 0, 0]) ∧ pad [] = [0xFF, 0xFF, 0xFF, 0xFF] ∧
    (∀ m0 m1 m2 : Byte, pad [m0] = [m0, 0xFF, 0xFF, 0xFF, 0x00] ∧ pad [m0, m1] = [m0, m1, 0xFF, 0xFF, 0x00, 0x00] ∧
      pad [m0, m1, m2] = [m0, m1, m2, 0xFF, 0x00, 0x00, 0x00])

/-- 42_parallel_engine.md R64: the two byte updates are one function. -/
def Obligations.ParallelStepEqualsSerialStep : Prop :=
  ∀ (d : Byte) (r : Word), pstep d r = sbyte r d

/-- 42_parallel_engine.md sections 1 and 4: the 32 equations, the masks, the closed form and the derivation method give one
function (the table is the spec's own derivation; log 11). -/
def Obligations.ParallelStepForms : Prop :=
  ∀ (d : Byte) (r : Word), pstepByMasks d r = pstep d r ∧ pstepClosed d r = pstep d r ∧ pstepDerived d r = pstep d r

/-- 42_parallel_engine.md section 2, for every length (the spec infers the lengths above 8): the parallel engine on the padded
message is the serial engine on the message; so Vanilla is one function whichever engine backs it. -/
def Obligations.ParallelOfPaddedIsSerial : Prop :=
  ∀ m : List Byte, parallelCompute (pad m) = serialCompute m ∧ vanillaParallel m = vanilla m ∧
    (m.length ≤ 4 → (parallelCompute m).toNat = m.foldl (fun n d => 256 * n + d.toNat) 0)

/-- 70_reset_and_hazards.md section 4 (step counts, part of the definitions): SBIT runs 1 bit step, SBYTE and DATAS 8, FINS
32; PBYTE and DATAP 1 byte step, FINP 4; NOP, INIT and the transforms none: they keep `CRC`, or set it to 0 whatever it was.
A message takes `8 * (L + 4)` bit steps or `L + 4` byte steps. Each list of steps is written out, its length stated. -/
def Obligations.StepCountsOfTheEngines : Prop :=
  (∀ (s : State) (din : Word), s.Running →
    (din.toNat < 2 → exec (.sbit din) s = .next { s with crc := [din.getLsbD 0].foldl sstep s.crc, xout := 0 }) ∧
    (din.toNat < 256 →
      exec (.sbyte din) s = .next { s with crc := (feedBits (din.setWidth 8)).foldl sstep s.crc, xout := 0 } ∧
      exec (.pbyte din) s = .next { s with crc := [din.setWidth 8].foldl (fun r d => pstep d r) s.crc, xout := 0 } ∧
      ∃ n : Fin 5, n.val = min (s.len.val + 1) 4 ∧
        exec (.datas din) s = .next { s with
          crc := (feedBits (itf s.conv s.len.val (din.setWidth 8))).foldl sstep s.crc, len := n, xout := 0 } ∧
        exec (.datap din) s = .next { s with
          crc := [itf s.conv s.len.val (din.setWidth 8)].foldl (fun r d => pstep d r) s.crc, len := n, xout := 0 }) ∧
    exec .fins s = .next { s with crc := ((padBytes s.len.val).flatMap feedBits).foldl sstep s.crc, xout := 0 } ∧
    exec .finp s = .next { s with crc := (padBytes s.len.val).foldl (fun r d => pstep d r) s.crc, xout := 0 } ∧
    ((padBytes s.len.val).flatMap feedBits).length = 32 ∧ (padBytes s.len.val).length = 4 ∧
    (∀ i : Instr, writesNoRegister i = true → ∃ t, exec i s = .next t ∧ t.crc = s.crc) ∧
    ∀ c : Convention, ∃ t, exec (.init c) s = .next t ∧ t.crc = 0) ∧
  (∀ d : Byte, (feedBits d).length = 8) ∧
  ∀ m : List Byte,
    serialCompute m = ((pad m).flatMap feedBits).foldl sstep 0 ∧ ((pad m).flatMap feedBits).length = 8 * (m.length + 4) ∧
    parallelCompute (pad m) = (pad m).foldl (fun r d => pstep d r) 0 ∧ (pad m).length = m.length + 4

/-! ### The transforms as functions -/

/-- 40_transforms.md section 3: each transform is its own inverse and a bijection, at every width it is defined for. -/
def Obligations.TransformsAreInvolutions : Prop :=
  (∀ (w : Nat) (x : BitVec w), reverseBits (reverseBits x) = x ∧ complement (complement x) = x) ∧
  (∀ (n : Nat) (x : BitVec (8 * n)),
    reverseBitsPerByte (reverseBitsPerByte x) = x ∧ reverseByteOrder (reverseByteOrder x) = x) ∧
  (∀ w : Nat, Function.Bijective (reverseBits (w := w)) ∧ Function.Bijective (complement (w := w))) ∧
  (∀ n : Nat, Function.Bijective (reverseBitsPerByte (w := 8 * n)) ∧ Function.Bijective (reverseByteOrder (w := 8 * n)))

/-- 40_transforms.md section 3: bit reversal is byte reversal of per-byte reversal in either order; complement commutes with
each reversal; the reversals are linear and complement is affine. -/
def Obligations.TransformsComposeAndCommute : Prop :=
  (∀ (n : Nat) (x y : BitVec (8 * n)),
    reverseBits x = reverseByteOrder (reverseBitsPerByte x) ∧ reverseBits x = reverseBitsPerByte (reverseByteOrder x) ∧
    complement (reverseBitsPerByte x) = reverseBitsPerByte (complement x) ∧
    complement (reverseByteOrder x) = reverseByteOrder (complement x) ∧
    reverseBitsPerByte (x ^^^ y) = reverseBitsPerByte x ^^^ reverseBitsPerByte y ∧
    reverseByteOrder (x ^^^ y) = reverseByteOrder x ^^^ reverseByteOrder y) ∧
  (∀ (w : Nat) (x y : BitVec w),
    complement (reverseBits x) = reverseBits (complement x) ∧
    reverseBits (x ^^^ y) = reverseBits x ^^^ reverseBits y ∧ complement (x ^^^ y) = complement x ^^^ y)

/-- 10_state.md section 4 and section 6: the output `RESULT` under each of the four conventions, bit by bit, from the columns
(b), (c), (d) of the table of conventions. -/
def Obligations.ResultBitByBit : Prop :=
  ∀ (s : State) (i : Nat), i < 32 →
    (s.conv = 0 → s.result.getLsbD i = s.crc.getLsbD i) ∧
    (s.conv = 1 → s.result.getLsbD i = !s.crc.getLsbD i) ∧
    (s.conv = 2 → s.result.getLsbD i = !s.crc.getLsbD (31 - i)) ∧
    (s.conv = 3 → s.result.getLsbD i = !s.crc.getLsbD (8 * (i / 8) + (7 - i % 8)))

/-! ### Messages -/

/-- 43_conventions.md section 2 (derived by the spec): the per-byte pieces make up the whole-message conventions: input
transform by position, the pad, the engine, the output transform. -/
def Obligations.PerBytePiecesMakeConventions : Prop :=
  ∀ (c : Convention) (m : List Byte),
    convValue c m =
      otf c ((m.mapIdx (fun i d => itf c (min i 4) d) ++ padBytes (min m.length 4)).foldl sbyte Config.initialCrc)

/-- An invariant every step keeps (43_conventions.md section 2, the proof outline of the bracket; the commands that close a
message, 70_reset_and_hazards.md section 3): whatever the host does, if a message is open its registers are the ones the
rules make of the bytes so far. -/
def Obligations.EveryStepKeepsTheOpenMessage : Prop :=
  ∀ (s t : State) (m : Option (List Byte)), Tracks s m → step s = .next t → Tracks t (messageAfterStep s m)

/-- That invariant holds right after reset, with the empty Vanilla message open. -/
def Obligations.ResetOpensTheEmptyMessage : Prop :=
  Tracks State.reset (some [])

/-- 10_state.md R12: `LEN` is the saturated count of message bytes; every input keeps it so, and reset starts it at 0. -/
def Obligations.LenIsTheSaturatedCount : Prop :=
  (State.reset.len.val = min 0 4) ∧
  ∀ (input : HostInput) (s t : State) (n : Nat), s.len.val = min n 4 → presentInput input s = .next t →
    t.len.val = min (countAfterInput input s n) 4

/-- 43_conventions.md R78, the message bracket: for every convention, every message and every choice of engines, with NOP and
transform commands anywhere in between. A raw command or a second INIT inside it does change the outcome: a bracket is
shown for each. -/
def Obligations.MessageBracketComputesConvention : Prop :=
  (∀ (c : Convention) (items : List BracketItem) (parallelFin : Bool) (s : State), s.Running →
    (∀ item ∈ items, item.legal = true) →
    ∃ t, runInstrs (bracket c items parallelFin) s = .next t ∧ t.result = convValue c (messageOf items) ∧
      t.len.val = min (messageOf items).length 4 ∧ t.conv = c ∧ t.fault = .noFault) ∧
  ∀ s : State, s.Running → ∀ raw ∈ [Instr.sbit 1, .sbyte 1, .pbyte 1, .init 1],
    ∃ t, runInstrs [.init 0, .datas 1, raw, .fins] s = .next t ∧ t.result ≠ convValue 0 [1]

/-- 43_conventions.md R85: the composition laws, of the functions and of the block's brackets, with either engine; every
bracket ends with `FAULT = 0`. -/
def Obligations.CompositionLawsOfTheBlock : Prop :=
  ∀ (m : List Byte) (parallel : Bool) (s : State), s.Running →
    let item : Byte → BracketItem := fun d => if parallel then .parallelByte d else .serialByte d
    let run : Convention → List Byte → Host.Outcome State Fault Refusal := fun c m =>
      runInstrs (bracket c (m.map item) parallel) s
    let res : Convention → List Byte → Option Word := fun c m => resultAfter (run c m)
    (invert m = complement (vanilla (complementFirst4 m)) ∧ bitReverseInvert m = reverseBits (invert (m.map reverseBits)) ∧
      bytewiseBitReverseInvert m = reverseByteOrder (bitReverseInvert m)) ∧
    (∀ c m, ∃ t, run c m = .next t ∧ t.fault = .noFault) ∧
    res 1 m = (res 0 (complementFirst4 m)).map complement ∧
    res 2 m = (res 1 (m.map reverseBits)).map reverseBits ∧ res 3 m = (res 2 m).map reverseByteOrder

/-- 70_reset_and_hazards.md section 1 (derived by the spec): a Vanilla bracket, with every choice of engines and with NOP and
transform commands in between, may start directly after reset, from any state, halted or not, without INIT. -/
def Obligations.VanillaNeedsNoInitAfterReset : Prop :=
  ∀ (items : List BracketItem) (parallelFin : Bool) (s : State), (∀ item ∈ items, item.legal = true) →
    ∃ t, runInputs (.reset :: (items.map fun item => presentInstr item.instr) ++ [presentInstr (finish parallelFin)]) s
        = .next t ∧ t.result = vanilla (messageOf items) ∧ Successful t

/-- 41_serial_engine.md section 3 and 70_reset_and_hazards.md section 3: with raw commands the host feeds the padded message
itself, through either engine; feeding the bare message leaves the unpadded value. -/
def Obligations.RawCommandsNeedTheCallersPadding : Prop :=
  ∀ (m : List Byte) (s : State), s.Running →
    (∃ t, runInstrs (.init 0 :: (pad m).map fun d => .sbyte (d.setWidth 32)) s = .next t ∧ t.result = vanilla m ∧
      t.fault = .noFault) ∧
    (∃ t, runInstrs (.init 0 :: (pad m).map fun d => .pbyte (d.setWidth 32)) s = .next t ∧ t.result = vanilla m ∧
      t.fault = .noFault) ∧
    (∃ t, runInstrs (.init 0 :: m.map fun d => .pbyte (d.setWidth 32)) s = .next t ∧ t.result = parallelCompute m ∧
      t.fault = .noFault)

/-- 30_encoding.md section 7, the effects of the pseudo-commands (marked derived by the spec; the abstract form of a line is
log 14). -/
def Obligations.PseudoCommandsHaveTheirEffects : Prop :=
  ∀ s : State, s.Running →
    (∃ is t, assemble .clr = some is ∧ runInstrs is s = .next t ∧ t.crc = 0 ∧ t.len = 0 ∧ t.conv = 0 ∧
      t.fault = .noFault) ∧
    (∀ v, v < 2 ^ 32 → ∃ is t, assemble (.setcrc v) = some is ∧ is.length = 5 ∧ runInstrs is s = .next t ∧
      t.crc.toNat = v ∧ t.len = 0 ∧ t.conv = 0 ∧ t.fault = .noFault) ∧
    (∀ d : Byte, ∃ is t, assemble (.sbits d) = some is ∧ is.length = 8 ∧ runInstrs is s = .next t ∧
      t.crc = sbyte s.crc d ∧ t.len = s.len ∧ t.conv = s.conv ∧ t.fault = .noFault) ∧
    (∀ (c : Convention) (m : List Byte), ∃ is is' t t',
      assemble (.msgs c.toNat (m.map BitVec.toNat)) = some is ∧ runInstrs is s = .next t ∧ t.result = convValue c m ∧
      t.fault = .noFault ∧
      assemble (.msgp c.toNat (m.map BitVec.toNat)) = some is' ∧ runInstrs is' s = .next t' ∧ t'.result = convValue c m ∧
      t'.fault = .noFault)

/-- 30_encoding.md section 7: the assembler puts the convention in `sel` for INIT, the width's code in `sel` for a transform,
the number in `din` and zero elsewhere; it takes a number too wide for its command and rejects one that does not fit in 32
bits (the abstract form of a line is log 14). -/
def Obligations.AssemblerPlacesOperands : Prop :=
  let words := fun line => (assemble line).map fun is => is.map fun i => (encode i).toNat
  words .nop = some [0] ∧ words .fins = some [7 * 2 ^ 36] ∧ words .finp = some [8 * 2 ^ 36] ∧
  (∀ c : Nat, words (.init c) = if c < 4 then some [2 ^ 36 + c * 2 ^ 34] else none) ∧
  (∀ name : ConventionName, words (.initNamed name) = some [2 ^ 36 + name.number.toNat * 2 ^ 34]) ∧
  ∀ n : Nat,
    (∀ p ∈ [(2, AsmLine.sbit n), (3, .sbyte n), (4, .pbyte n), (5, .datas n), (6, .datap n)],
      words p.2 = if n < 2 ^ 32 then some [p.1 * 2 ^ 36 + n] else none) ∧
    ∀ w ∈ [(0, WidthSuffix.w8), (1, .w16), (2, .w32)],
    ∀ p ∈ [(9, AsmLine.revb), (10, .revpb), (11, .swapb), (12, .cpl)],
      words (p.2 w.2 n) = if n < 2 ^ 32 then some [p.1 * 2 ^ 36 + w.1 * 2 ^ 34 + n] else none

/-- 43_conventions.md section 4 (why the pad rule has `0xFF` bytes, derived by the spec): Invert is, for every length, the
usual CRC with all-ones initial value and all-ones final XOR; Vanilla is the one with neither from four bytes on. The
usual formulation is written from its description there, log 10. -/
def Obligations.InvertIsTheAllOnesCrc : Prop :=
  ∀ m : List Byte,
    invert m = complement (directCrc 0xFFFFFFFF m) ∧ (4 ≤ m.length → vanilla m = directCrc 0 m) ∧
    pad (complementFirst4 m) = complementFirst4 (m ++ [0, 0, 0, 0])

/-- 43_conventions.md section 4 (the relation to the Reference Oracle, derived by the spec): BitReverseInvert is the standard
reflected CRC-32 of every message, and BytewiseBitReverseInvert is its byte reversal. The reference function is written
from its parameters, log 10; it is no part of the machine. -/
def Obligations.ConventionTwoIsTheReferenceCrc : Prop :=
  ∀ m : List Byte,
    bitReverseInvert m = referenceCrc m ∧ bytewiseBitReverseInvert m = reverseByteOrder (referenceCrc m)
end

