-- ==== Sys2Proof/Laws/Bits.lean ====
section
/-! SUPPORT. The bits of the values the model builds bit by bit. -/

namespace Sys2Proof.Machine

@[simp] theorem getLsbD_ofBits (f : Nat → Bool) (w i : Nat) : (ofBits f w).getLsbD i = (decide (i < w) && f i) := by
  induction w with
  | zero => simp [ofBits]
  | succ w ih =>
    rw [ofBits, BitVec.getLsbD_cons]
    split
    · simp_all
    · rw [ih]
      congr 1
      simp
      omega

@[simp] theorem getLsbD_reverseBits {w : Nat} (x : BitVec w) (i : Nat) :
    (reverseBits x).getLsbD i = (decide (i < w) && x.getLsbD (w - 1 - i)) := by
  simp [reverseBits]

@[simp] theorem getLsbD_reverseBitsPerByte {w : Nat} (x : BitVec w) (i : Nat) :
    (reverseBitsPerByte x).getLsbD i = (decide (i < w) && x.getLsbD (8 * (i / 8) + (7 - i % 8))) := by
  simp [reverseBitsPerByte]

@[simp] theorem getLsbD_reverseByteOrder {w : Nat} (x : BitVec w) (i : Nat) :
    (reverseByteOrder x).getLsbD i = (decide (i < w) && x.getLsbD (8 * (w / 8 - 1 - i / 8) + i % 8)) := by
  simp [reverseByteOrder]

/-- Complement is bitwise NOT within the width (00_scope.md R9). -/
theorem complement_eq_not {w : Nat} (x : BitVec w) : complement x = ~~~x := by
  apply BitVec.eq_of_toNat_eq
  have := x.isLt
  rw [complement, BitVec.toNat_not, BitVec.toNat_ofNat, Nat.mod_eq_of_lt (by omega)]

@[simp] theorem getLsbD_complement {w : Nat} (x : BitVec w) (i : Nat) :
    (complement x).getLsbD i = (decide (i < w) && !x.getLsbD i) := by
  simp [complement_eq_not]

@[simp] theorem getLsbD_pstep (d : Byte) (r : Word) (i : Nat) :
    (pstep d r).getLsbD i = (decide (i < 32) && xorEquation d.getLsbD r.getLsbD i) := by
  simp [pstep]

end Sys2Proof.Machine
end

