-- ==== Sys2Proof/Laws/Decode.lean ====
section
/-! SUPPORT. The fields of an assembled command word, and a word from its fields (30_encoding.md R31). -/

namespace Sys2Proof

theorem getLsbD_assembleWord (op : BitVec 4) (sel rsv : BitVec 2) (din : Word) (i : Nat) :
    (assembleWord op sel rsv din).getLsbD i =
      if i < 32 then din.getLsbD i else if i < 34 then rsv.getLsbD (i - 32) else if i < 36 then sel.getLsbD (i - 34)
      else op.getLsbD (i - 36) := by
  rw [assembleWord, BitVec.getLsbD_append, BitVec.getLsbD_append, BitVec.getLsbD_append]
  split_ifs <;> first | rfl | omega

@[simp] theorem opField_assembleWord (op : BitVec 4) (sel rsv : BitVec 2) (din : Word) :
    opField (assembleWord op sel rsv din) = op := by
  refine BitVec.eq_of_getLsbD_eq fun i hi => ?_
  rw [opField, BitVec.getLsbD_extractLsb', getLsbD_assembleWord, if_neg (by omega), if_neg (by omega), if_neg (by omega)]
  simp [hi]

@[simp] theorem selField_assembleWord (op : BitVec 4) (sel rsv : BitVec 2) (din : Word) :
    selField (assembleWord op sel rsv din) = sel := by
  refine BitVec.eq_of_getLsbD_eq fun i hi => ?_
  rw [selField, BitVec.getLsbD_extractLsb', getLsbD_assembleWord, if_neg (by omega), if_neg (by omega), if_pos (by omega)]
  simp [hi]

@[simp] theorem rsvField_assembleWord (op : BitVec 4) (sel rsv : BitVec 2) (din : Word) :
    rsvField (assembleWord op sel rsv din) = rsv := by
  refine BitVec.eq_of_getLsbD_eq fun i hi => ?_
  rw [rsvField, BitVec.getLsbD_extractLsb', getLsbD_assembleWord, if_neg (by omega), if_pos (by omega)]
  simp [hi]

@[simp] theorem dinField_assembleWord (op : BitVec 4) (sel rsv : BitVec 2) (din : Word) :
    dinField (assembleWord op sel rsv din) = din := by
  refine BitVec.eq_of_getLsbD_eq fun i hi => ?_
  rw [dinField, BitVec.getLsbD_extractLsb', getLsbD_assembleWord, if_pos (by omega)]
  simp [hi]

theorem assembleWord_fields (cw : CommandWord) :
    assembleWord (opField cw) (selField cw) (rsvField cw) (dinField cw) = cw := by
  refine BitVec.eq_of_getLsbD_eq fun i hi => ?_
  rw [getLsbD_assembleWord]
  simp only [opField, selField, rsvField, dinField, BitVec.getLsbD_extractLsb']
  split_ifs <;> rw [decide_eq_true (by omega), Bool.true_and] <;> congr 1 <;> omega

end Sys2Proof
end

