-- ==== Sys2Proof/Laws/State.lean ====
section
/-! SUPPORT. One lemma per field for each state update, so that no proof unfolds a record update. -/

namespace Sys2Proof.Machine

@[simp] theorem ignoreCommand_crc (s : State) : (ignoreCommand s).crc = s.crc := rfl
@[simp] theorem ignoreCommand_len (s : State) : (ignoreCommand s).len = s.len := rfl
@[simp] theorem ignoreCommand_conv (s : State) : (ignoreCommand s).conv = s.conv := rfl
@[simp] theorem ignoreCommand_fault (s : State) : (ignoreCommand s).fault = s.fault := rfl
@[simp] theorem ignoreCommand_xout (s : State) : (ignoreCommand s).xout = 0 := rfl
@[simp] theorem ignoreCommand_pending (s : State) : (ignoreCommand s).pending = s.pending := rfl

@[simp] theorem takeFault_crc (c : FaultCause) (s : State) : (takeFault c s).crc = s.crc := rfl
@[simp] theorem takeFault_len (c : FaultCause) (s : State) : (takeFault c s).len = s.len := rfl
@[simp] theorem takeFault_conv (c : FaultCause) (s : State) : (takeFault c s).conv = s.conv := rfl
@[simp] theorem takeFault_fault (c : FaultCause) (s : State) : (takeFault c s).fault = c := rfl
@[simp] theorem takeFault_xout (c : FaultCause) (s : State) : (takeFault c s).xout = 0 := rfl
@[simp] theorem takeFault_pending (c : FaultCause) (s : State) : (takeFault c s).pending = s.pending := rfl

@[simp] theorem writeCrc_crc (v : Word) (s : State) : (writeCrc v s).crc = v := rfl
@[simp] theorem writeCrc_len (v : Word) (s : State) : (writeCrc v s).len = s.len := rfl
@[simp] theorem writeCrc_conv (v : Word) (s : State) : (writeCrc v s).conv = s.conv := rfl
@[simp] theorem writeCrc_fault (v : Word) (s : State) : (writeCrc v s).fault = s.fault := rfl
@[simp] theorem writeCrc_xout (v : Word) (s : State) : (writeCrc v s).xout = 0 := rfl
@[simp] theorem writeCrc_pending (v : Word) (s : State) : (writeCrc v s).pending = s.pending := rfl

@[simp] theorem driveXout_crc (v : Word) (s : State) : (driveXout v s).crc = s.crc := rfl
@[simp] theorem driveXout_len (v : Word) (s : State) : (driveXout v s).len = s.len := rfl
@[simp] theorem driveXout_conv (v : Word) (s : State) : (driveXout v s).conv = s.conv := rfl
@[simp] theorem driveXout_fault (v : Word) (s : State) : (driveXout v s).fault = s.fault := rfl
@[simp] theorem driveXout_xout (v : Word) (s : State) : (driveXout v s).xout = v := rfl
@[simp] theorem driveXout_pending (v : Word) (s : State) : (driveXout v s).pending = s.pending := rfl

@[simp] theorem applyReset_crc (s : State) : (applyReset s).crc = 0 := rfl
@[simp] theorem applyReset_len (s : State) : (applyReset s).len = 0 := rfl
@[simp] theorem applyReset_conv (s : State) : (applyReset s).conv = 0 := rfl
@[simp] theorem applyReset_fault (s : State) : (applyReset s).fault = .noFault := rfl
@[simp] theorem applyReset_xout (s : State) : (applyReset s).xout = 0 := rfl
@[simp] theorem applyReset_pending (s : State) : (applyReset s).pending = s.pending := rfl

@[simp] theorem idle_crc (s : State) : (idle s).crc = s.crc := rfl
@[simp] theorem idle_len (s : State) : (idle s).len = s.len := rfl
@[simp] theorem idle_conv (s : State) : (idle s).conv = s.conv := rfl
@[simp] theorem idle_fault (s : State) : (idle s).fault = s.fault := rfl
@[simp] theorem idle_xout (s : State) : (idle s).xout = 0 := rfl
@[simp] theorem idle_pending (s : State) : (idle s).pending = s.pending := rfl

@[simp] theorem pushCommand_crc (cw : CommandWord) (s : State) : (pushCommand cw s).crc = s.crc := rfl
@[simp] theorem pushCommand_len (cw : CommandWord) (s : State) : (pushCommand cw s).len = s.len := rfl
@[simp] theorem pushCommand_conv (cw : CommandWord) (s : State) : (pushCommand cw s).conv = s.conv := rfl
@[simp] theorem pushCommand_fault (cw : CommandWord) (s : State) : (pushCommand cw s).fault = s.fault := rfl
@[simp] theorem pushCommand_xout (cw : CommandWord) (s : State) : (pushCommand cw s).xout = s.xout := rfl
@[simp] theorem pushCommand_pending (cw : CommandWord) (s : State) : (pushCommand cw s).pending = .command cw :: s.pending := rfl

@[simp] theorem State.reset_crc : State.reset.crc = 0 := rfl
@[simp] theorem State.reset_len : State.reset.len = 0 := rfl
@[simp] theorem State.reset_conv : State.reset.conv = 0 := rfl
@[simp] theorem State.reset_fault : State.reset.fault = .noFault := rfl
@[simp] theorem State.reset_xout : State.reset.xout = 0 := rfl
@[simp] theorem State.reset_pending : State.reset.pending = [] := rfl

@[simp] theorem countByte_val (len : Fin 5) : (countByte len).val = min (len.val + 1) 4 := rfl

@[simp] theorem takeInput_nil {s : State} (h : s.pending = []) : takeInput s = none := by
  simp [takeInput, h]

@[simp] theorem takeInput_cons {s : State} {input : HostInput} {rest : List HostInput} (h : s.pending = input :: rest) :
    takeInput s = some (input, { s with pending := rest }) := by
  simp [takeInput, h]

end Sys2Proof.Machine
end

