-- ==== Sys2Proof/Laws/Ops.lean ====
section
/-! SUPPORT. What the shared checks do, case by case: the provers cite these instead of unfolding the checks. -/

namespace Sys2Proof.Machine

@[simp] theorem whenRunning_of_running {s : State} (effect : State → State) (h : s.Running) :
    whenRunning effect s = effect s := if_pos h

@[simp] theorem whenRunning_of_halted {s : State} (effect : State → State) (h : s.Halted) :
    whenRunning effect s = ignoreCommand s := if_neg h

@[simp] theorem withOperand_of_halted {s : State} (ow : Nat) (din : Word) (effect : State → State) (h : s.Halted) :
    withOperand ow din effect s = ignoreCommand s := if_neg h

theorem withOperand_of_fits {s : State} {ow : Nat} {din : Word} (effect : State → State) (h : s.Running)
    (hw : OperandFits ow din) : withOperand ow din effect s = effect s := by
  rw [withOperand, whenRunning_of_running _ h, if_pos hw]

theorem withOperand_of_wide {s : State} {ow : Nat} {din : Word} (effect : State → State) (h : s.Running)
    (hw : ¬ OperandFits ow din) : withOperand ow din effect s = takeFault .widthViolation s := by
  rw [withOperand, whenRunning_of_running _ h, if_neg hw]

/-- Everything a checked command can answer. -/
theorem withOperand_cases (ow : Nat) (din : Word) (effect : State → State) (s : State) :
    (s.Halted ∧ withOperand ow din effect s = ignoreCommand s) ∨
    (s.Running ∧ ¬ OperandFits ow din ∧ withOperand ow din effect s = takeFault .widthViolation s) ∨
    (s.Running ∧ OperandFits ow din ∧ withOperand ow din effect s = effect s) := by
  by_cases h : s.Running
  · by_cases hw : OperandFits ow din
    · exact .inr (.inr ⟨h, hw, withOperand_of_fits effect h hw⟩)
    · exact .inr (.inl ⟨h, hw, withOperand_of_wide effect h hw⟩)
  · exact .inl ⟨h, withOperand_of_halted ow din effect h⟩

/-- What remains of an operand that fits is all of it (30_encoding.md R36: "not a slice"). -/
theorem toNat_wordOperand {w : Nat} {din : Word} (h : OperandFits w din) : (wordOperand w din).toNat = din.toNat := by
  rw [wordOperand, BitVec.toNat_setWidth, Nat.mod_eq_of_lt h]

theorem toNat_byteOperand {din : Word} (h : OperandFits 8 din) : (byteOperand din).toNat = din.toNat := by
  rw [byteOperand, BitVec.toNat_setWidth, Nat.mod_eq_of_lt h]

end Sys2Proof.Machine
end

