-- ==== Sys2Proof/Laws/WellFormed.lean ====
section
/-! SUPPORT. When each command is well-formed (30_encoding.md R36, R38). -/

namespace Sys2Proof

@[simp] theorem wellFormed_nop : Instr.wellFormed .nop = true := rfl
@[simp] theorem wellFormed_init (c : Convention) : (Instr.init c).wellFormed = true := rfl
@[simp] theorem wellFormed_fins : Instr.wellFormed .fins = true := rfl
@[simp] theorem wellFormed_finp : Instr.wellFormed .finp = true := rfl
@[simp] theorem wellFormed_sbit (din : Word) : (Instr.sbit din).wellFormed = decide (din.toNat < 2) := rfl
@[simp] theorem wellFormed_sbyte (din : Word) : (Instr.sbyte din).wellFormed = decide (din.toNat < 256) := rfl
@[simp] theorem wellFormed_pbyte (din : Word) : (Instr.pbyte din).wellFormed = decide (din.toNat < 256) := rfl
@[simp] theorem wellFormed_datas (din : Word) : (Instr.datas din).wellFormed = decide (din.toNat < 256) := rfl
@[simp] theorem wellFormed_datap (din : Word) : (Instr.datap din).wellFormed = decide (din.toNat < 256) := rfl
@[simp] theorem wellFormed_revb8 (din : Word) : (Instr.revb8 din).wellFormed = decide (din.toNat < 256) := rfl
@[simp] theorem wellFormed_revb16 (din : Word) : (Instr.revb16 din).wellFormed = decide (din.toNat < 65536) := rfl
@[simp] theorem wellFormed_revpb8 (din : Word) : (Instr.revpb8 din).wellFormed = decide (din.toNat < 256) := rfl
@[simp] theorem wellFormed_revpb16 (din : Word) : (Instr.revpb16 din).wellFormed = decide (din.toNat < 65536) := rfl
@[simp] theorem wellFormed_swapb8 (din : Word) : (Instr.swapb8 din).wellFormed = decide (din.toNat < 256) := rfl
@[simp] theorem wellFormed_swapb16 (din : Word) : (Instr.swapb16 din).wellFormed = decide (din.toNat < 65536) := rfl
@[simp] theorem wellFormed_cpl8 (din : Word) : (Instr.cpl8 din).wellFormed = decide (din.toNat < 256) := rfl
@[simp] theorem wellFormed_cpl16 (din : Word) : (Instr.cpl16 din).wellFormed = decide (din.toNat < 65536) := rfl
@[simp] theorem wellFormed_revb32 (din : Word) : (Instr.revb32 din).wellFormed = true := decide_eq_true din.isLt
@[simp] theorem wellFormed_revpb32 (din : Word) : (Instr.revpb32 din).wellFormed = true := decide_eq_true din.isLt
@[simp] theorem wellFormed_swapb32 (din : Word) : (Instr.swapb32 din).wellFormed = true := decide_eq_true din.isLt
@[simp] theorem wellFormed_cpl32 (din : Word) : (Instr.cpl32 din).wellFormed = true := decide_eq_true din.isLt

/-- A command is ill-formed exactly when it has an operand and the operand exceeds its width. -/
theorem wellFormed_eq_false_iff (i : Instr) :
    i.wellFormed = false ↔ ∃ din, i.operand? = some din ∧ 2 ^ i.operandWidth ≤ din.toNat := by
  cases h : i.operand? with
  | none => simp [Instr.wellFormed, h]
  | some din => simp [Instr.wellFormed, h]

end Sys2Proof
end

