-- ==== Sys2Proof/Laws/Exec.lean ====
section
/-! SUPPORT. Everything a command can do, once for all commands. -/

namespace Sys2Proof.Machine

/-- The effect of a command that is neither ignored nor faulted. -/
def effectOf : Instr → State → State
  | .nop, s => { s with xout := 0 }
  | .init conv, s => { s with crc := Config.initialCrc, len := 0, conv := conv, xout := 0 }
  | .sbit din, s => writeCrc (sstep s.crc (bitOperand din)) s
  | .sbyte din, s => writeCrc (sbyte s.crc (byteOperand din)) s
  | .pbyte din, s => writeCrc (pstep (byteOperand din) s.crc) s
  | .datas din, s => dataByte sbyte din s
  | .datap din, s => dataByte (fun r d => pstep d r) din s
  | .fins, s => padAndFinish sbyte s
  | .finp, s => padAndFinish (fun r d => pstep d r) s
  | .revb8 din, s => driveXout ((reverseBits (wordOperand 8 din)).setWidth 32) s
  | .revb16 din, s => driveXout ((reverseBits (wordOperand 16 din)).setWidth 32) s
  | .revb32 din, s => driveXout ((reverseBits (wordOperand 32 din)).setWidth 32) s
  | .revpb8 din, s => driveXout ((reverseBitsPerByte (wordOperand 8 din)).setWidth 32) s
  | .revpb16 din, s => driveXout ((reverseBitsPerByte (wordOperand 16 din)).setWidth 32) s
  | .revpb32 din, s => driveXout ((reverseBitsPerByte (wordOperand 32 din)).setWidth 32) s
  | .swapb8 din, s => driveXout ((reverseByteOrder (wordOperand 8 din)).setWidth 32) s
  | .swapb16 din, s => driveXout ((reverseByteOrder (wordOperand 16 din)).setWidth 32) s
  | .swapb32 din, s => driveXout ((reverseByteOrder (wordOperand 32 din)).setWidth 32) s
  | .cpl8 din, s => driveXout ((complement (wordOperand 8 din)).setWidth 32) s
  | .cpl16 din, s => driveXout ((complement (wordOperand 16 din)).setWidth 32) s
  | .cpl32 din, s => driveXout ((complement (wordOperand 32 din)).setWidth 32) s

/-- Everything `exec` can answer: the command is ignored, faults, or has its effect. -/
theorem exec_cases (i : Instr) (s : State) :
    (s.Halted ∧ exec i s = .next (ignoreCommand s)) ∨
    (s.Running ∧ i.wellFormed = false ∧ exec i s = .next (takeFault .widthViolation s)) ∨
    (s.Running ∧ i.wellFormed = true ∧ exec i s = .next (effectOf i s)) := by
  by_cases h : s.Running
  · refine .inr ?_
    by_cases hw : i.wellFormed = true
    · refine .inr ⟨h, hw, ?_⟩
      cases i <;>
        first
        | exact congrArg Host.Outcome.next (whenRunning_of_running _ h)
        | exact congrArg Host.Outcome.next (withOperand_of_fits _ h (of_decide_eq_true hw))
    · refine .inl ⟨h, by simpa using hw, ?_⟩
      cases i <;>
        first
        | exact absurd rfl hw
        | exact congrArg Host.Outcome.next (withOperand_of_wide _ h fun hf => hw (decide_eq_true hf))
  · refine .inl ⟨h, ?_⟩
    cases i <;>
      first
      | exact congrArg Host.Outcome.next (whenRunning_of_halted _ h)
      | exact congrArg Host.Outcome.next (withOperand_of_halted _ _ _ h)

theorem exec_of_halted {s : State} (i : Instr) (h : s.Halted) : exec i s = .next (ignoreCommand s) := by
  rcases exec_cases i s with ⟨-, e⟩ | ⟨h', -⟩ | ⟨h', -⟩
  · exact e
  · exact absurd h' h
  · exact absurd h' h

theorem exec_of_wellFormed {s : State} {i : Instr} (h : s.Running) (hw : i.wellFormed = true) :
    exec i s = .next (effectOf i s) := by
  rcases exec_cases i s with ⟨h', -⟩ | ⟨-, hw', -⟩ | ⟨-, -, e⟩
  · exact absurd h h'
  · simp [hw] at hw'
  · exact e

theorem exec_of_illFormed {s : State} {i : Instr} (h : s.Running) (hw : i.wellFormed = false) :
    exec i s = .next (takeFault .widthViolation s) := by
  rcases exec_cases i s with ⟨h', -⟩ | ⟨-, -, e⟩ | ⟨-, hw', -⟩
  · exact absurd h h'
  · exact e
  · simp [hw] at hw'

end Sys2Proof.Machine
end

