-- ==== Sys2Proof/Laws/PerInstr.lean ====
section
/-! SUPPORT. Statements about every command as syntax, one lemma per constructor. -/

namespace Sys2Proof.Laws.EncodedFields

/-- The fields of a command's word are its operation code, its `sel`, zero and its `din`, and a reserved code appears in
none of them (30_encoding.md R31, R33, R34). -/
def Statement (i : Instr) : Prop :=
  opField (encode i) = i.opcode ∧ selField (encode i) = i.sel ∧ rsvField (encode i) = 0 ∧ dinField (encode i) = i.din ∧
    i.opcode.toNat ≤ 12 ∧ (9 ≤ i.opcode.toNat → i.sel ≠ 3)

theorem fields (i : Instr) (h : i.opcode.toNat ≤ 12) (hs : 9 ≤ i.opcode.toNat → i.sel ≠ 3) : Statement i := by
  simp [Statement, encode, h]
  simpa using hs

theorem nop : Statement .nop := fields _ (by simp [Instr.opcode]) (by simp [Instr.opcode, Instr.sel])
theorem init (c : Convention) : Statement (.init c) := fields _ (by simp [Instr.opcode]) (by simp [Instr.opcode])
theorem sbit (d : Word) : Statement (.sbit d) := fields _ (by simp [Instr.opcode]) (by simp [Instr.opcode, Instr.sel])
theorem sbyte (d : Word) : Statement (.sbyte d) := fields _ (by simp [Instr.opcode]) (by simp [Instr.opcode, Instr.sel])
theorem pbyte (d : Word) : Statement (.pbyte d) := fields _ (by simp [Instr.opcode]) (by simp [Instr.opcode, Instr.sel])
theorem datas (d : Word) : Statement (.datas d) := fields _ (by simp [Instr.opcode]) (by simp [Instr.opcode, Instr.sel])
theorem datap (d : Word) : Statement (.datap d) := fields _ (by simp [Instr.opcode]) (by simp [Instr.opcode, Instr.sel])
theorem fins : Statement .fins := fields _ (by simp [Instr.opcode]) (by simp [Instr.opcode, Instr.sel])
theorem finp : Statement .finp := fields _ (by simp [Instr.opcode]) (by simp [Instr.opcode, Instr.sel])
theorem revb8 (d : Word) : Statement (.revb8 d) := fields _ (by simp [Instr.opcode]) (by simp [Instr.opcode, Instr.sel])
theorem revb16 (d : Word) : Statement (.revb16 d) := fields _ (by simp [Instr.opcode]) (by simp [Instr.opcode, Instr.sel])
theorem revb32 (d : Word) : Statement (.revb32 d) := fields _ (by simp [Instr.opcode]) (by simp [Instr.opcode, Instr.sel])
theorem revpb8 (d : Word) : Statement (.revpb8 d) := fields _ (by simp [Instr.opcode]) (by simp [Instr.opcode, Instr.sel])
theorem revpb16 (d : Word) : Statement (.revpb16 d) := fields _ (by simp [Instr.opcode]) (by simp [Instr.opcode, Instr.sel])
theorem revpb32 (d : Word) : Statement (.revpb32 d) := fields _ (by simp [Instr.opcode]) (by simp [Instr.opcode, Instr.sel])
theorem swapb8 (d : Word) : Statement (.swapb8 d) := fields _ (by simp [Instr.opcode]) (by simp [Instr.opcode, Instr.sel])
theorem swapb16 (d : Word) : Statement (.swapb16 d) := fields _ (by simp [Instr.opcode]) (by simp [Instr.opcode, Instr.sel])
theorem swapb32 (d : Word) : Statement (.swapb32 d) := fields _ (by simp [Instr.opcode]) (by simp [Instr.opcode, Instr.sel])
theorem cpl8 (d : Word) : Statement (.cpl8 d) := fields _ (by simp [Instr.opcode]) (by simp [Instr.opcode, Instr.sel])
theorem cpl16 (d : Word) : Statement (.cpl16 d) := fields _ (by simp [Instr.opcode]) (by simp [Instr.opcode, Instr.sel])
theorem cpl32 (d : Word) : Statement (.cpl32 d) := fields _ (by simp [Instr.opcode]) (by simp [Instr.opcode, Instr.sel])

end Sys2Proof.Laws.EncodedFields
end

