-- ==== Sys2Proof/Laws/Step.lean ====
section
/-! SUPPORT. Everything a step can do: one inversion lemma, from which invariants are derived. -/

namespace Sys2Proof.Machine

theorem presentCommand_of_ok {s : State} {cw : CommandWord} {i : Instr} (h : decode cw = .ok i) :
    presentCommand cw s = exec i s := by
  unfold presentCommand
  split
  · next hs => exact (exec_of_halted i hs).symm
  · rw [h]

theorem presentCommand_of_error {s : State} {cw : CommandWord} {e : Illegal} (hs : s.Running)
    (h : decode cw = .error e) : presentCommand cw s = .next (takeFault .illegalCommand s) := by
  rw [presentCommand, if_neg (not_not_intro hs), h]

theorem presentCommand_of_halted {s : State} (cw : CommandWord) (hs : s.Halted) :
    presentCommand cw s = .next (ignoreCommand s) := by
  rw [presentCommand, if_pos hs]

/-- Everything a host input can do: reset, an ignored word, an illegal word, or a command. -/
theorem presentInput_cases (input : HostInput) (s : State) :
    (input = .reset ∧ presentInput input s = .next (applyReset s)) ∨
    (∃ cw, input = .command cw ∧
      ((s.Halted ∧ presentInput input s = .next (ignoreCommand s)) ∨
       (s.Running ∧ ∃ e, decode cw = .error e ∧ presentInput input s = .next (takeFault .illegalCommand s)) ∨
       (s.Running ∧ ∃ i, decode cw = .ok i ∧ presentInput input s = exec i s))) := by
  match input with
  | .reset => exact .inl ⟨rfl, rfl⟩
  | .command cw =>
    refine .inr ⟨cw, rfl, ?_⟩
    by_cases hs : s.Running
    · match hd : decode cw with
      | .ok i => exact .inr (.inr ⟨hs, i, rfl, presentCommand_of_ok hd⟩)
      | .error e => exact .inr (.inl ⟨hs, e, rfl, presentCommand_of_error hs hd⟩)
    · exact .inl ⟨hs, presentCommand_of_halted cw hs⟩

theorem step_of_nil {s : State} (h : s.pending = []) : step s = .next (idle s) := by
  rw [step, takeInput_nil h]

theorem step_of_cons {s : State} {input : HostInput} {rest : List HostInput} (h : s.pending = input :: rest) :
    step s = presentInput input { s with pending := rest } := by
  rw [step, takeInput_cons h]

/-- Everything a step that answers a next state can have done. -/
theorem step_inv {s t : State} (h : step s = .next t) :
    (s.pending = [] ∧ t = idle s) ∨
    (∃ rest, s.pending = .reset :: rest ∧ t = applyReset { s with pending := rest }) ∨
    (∃ cw rest, s.pending = .command cw :: rest ∧
      ((s.Halted ∧ t = ignoreCommand { s with pending := rest }) ∨
       (s.Running ∧ ∃ e, decode cw = .error e ∧ t = takeFault .illegalCommand { s with pending := rest }) ∨
       (s.Running ∧ ∃ i, decode cw = .ok i ∧ exec i { s with pending := rest } = .next t))) := by
  match hp : s.pending with
  | [] =>
    rw [step_of_nil hp] at h
    exact .inl ⟨rfl, (Host.Outcome.next.inj h).symm⟩
  | input :: rest =>
    rw [step_of_cons hp] at h
    obtain ⟨rfl, e⟩ | ⟨cw, rfl, ⟨hs, e⟩ | ⟨hs, x, hd, e⟩ | ⟨hs, i, hd, e⟩⟩ :=
      presentInput_cases input { s with pending := rest } <;> rw [e] at h
    · exact .inr (.inl ⟨rest, rfl, (Host.Outcome.next.inj h).symm⟩)
    · exact .inr (.inr ⟨cw, rest, rfl, .inl ⟨hs, (Host.Outcome.next.inj h).symm⟩⟩)
    · exact .inr (.inr ⟨cw, rest, rfl, .inr (.inl ⟨hs, x, hd, (Host.Outcome.next.inj h).symm⟩)⟩)
    · exact .inr (.inr ⟨cw, rest, rfl, .inr (.inr ⟨hs, i, hd, h⟩)⟩)

end Sys2Proof.Machine
end

