-- ==== Sys2Proof/Laws/Run.lean ====
section
/-! SUPPORT. Running a sequence of inputs, one input at a time. -/

namespace Sys2Proof.Machine

@[simp] theorem runInputs_nil (s : State) : runInputs [] s = .next { s with pending := [] } := rfl

/-- One step of a run that answers a next state. -/
theorem run_succ {M : Host.Core} {k : Nat} {s t : M.State} (h : M.step s = .next t) : M.run (k + 1) s = M.run k t := by
  simp only [Host.Core.run]
  rw [h]

/-- One input, then the rest. -/
theorem runInputs_cons {input : HostInput} {rest : List HostInput} {s t : State}
    (h : step { s with pending := input :: rest } = .next t) (hp : t.pending = rest) :
    runInputs (input :: rest) s = runInputs rest t := by
  subst hp
  exact run_succ (M := Sys2Proof.core) h

/-- What runs next does not depend on what was pending. -/
@[simp] theorem runInputs_pending (inputs p : List HostInput) (s : State) :
    runInputs inputs { s with pending := p } = runInputs inputs s := rfl

/-- No effect of a command reads or writes the host's stream. -/
theorem effectOf_pending (i : Instr) (s : State) (p : List HostInput) :
    effectOf i { s with pending := p } = { effectOf i s with pending := p } := by
  cases i <;> rfl

/-- No effect of a command writes `FAULT`. -/
@[simp] theorem effectOf_fault (i : Instr) (s : State) : (effectOf i s).fault = s.fault := by
  cases i <;> rfl

end Sys2Proof.Machine
end

