-- ==== Sys2Proof/Machine/AsmText.lean ====
section
/-! DEFINITION. The assembler's text (30_encoding.md R39): "One command per line; `;` starts a comment; numbers are decimal or
`0x` hexadecimal." Text is a list of characters. What R39 leaves open of it (blanks, the case of letters) is log 14. It is
the host's tool, no part of the block. -/

namespace Sys2Proof.Machine

/-- A word, a number, a comma or a square bracket of a line. -/
abbrev Token := List Char

/-- The lines of a text. -/
def linesOf (text : List Char) : List (List Char) :=
  text.foldr (fun c ls =>
    if c = '\n' then [] :: ls
    else
      match ls with
      | l :: rest => (c :: l) :: rest
      | [] => [[c]]) [[]]

/-- `;` starts a comment (R39). -/
def withoutComment (line : List Char) : List Char := line.takeWhile (· ≠ ';')

/-- A finished token, if there is one, in front of those already found. -/
def closeToken (current : Token) (found : List Token) : List Token :=
  if current = [] then found else current :: found

/-- The tokens of a line without its comment, read from its end. -/
def tokensOf (line : List Char) : List Token :=
  let p := line.foldr (fun c p =>
    if c ∈ [' ', '\t', '\r'] then ([], closeToken p.1 p.2)
    else if c ∈ [',', '[', ']'] then ([], [c] :: closeToken p.1 p.2)
    else (c :: p.1, p.2)) (([] : Token), ([] : List Token))
  closeToken p.1 p.2

/-- The value of a digit in a base; hexadecimal digits in either case (log 14). -/
def digitValue (base : Nat) (c : Char) : Option Nat :=
  let n := c.toNat
  let v :=
    if 48 ≤ n ∧ n ≤ 57 then n - 48
    else if 65 ≤ n ∧ n ≤ 70 then n - 55
    else if 97 ≤ n ∧ n ≤ 102 then n - 87
    else 16
  if v < base then some v else none

/-- The value of a non-empty string of digits. -/
def digitsValue (base : Nat) (ds : List Char) : Option Nat :=
  if ds = [] then none
  else (ds.mapM (digitValue base)).map fun vs => vs.foldl (fun n v => base * n + v) 0

/-- A number, decimal or `0x` hexadecimal (R39). -/
def readNumber (t : Token) : Option Nat :=
  if t.take 2 = ['0', 'x'] then digitsValue 16 (t.drop 2) else digitsValue 10 t

/-- The names R39 gives the conventions. -/
def conventionNames : List (Token × ConventionName) :=
  [("VANILLA".toList, .vanilla), ("INVERT".toList, .invert), ("BRI".toList, .bri), ("BBRI".toList, .bbri)]

/-- `<conv>` of the pseudo-commands: a number, or a name and so its number. -/
def readConvention (t : Token) : Option Nat :=
  match conventionNames.lookup t with
  | some name => some name.number.toNat
  | none => readNumber t

/-- The elements of a byte list and its closing bracket. -/
def readElements : List Token → Option (List Nat)
  | t :: sep :: rest =>
    match readNumber t with
    | none => none
    | some n =>
      if sep = [','] then (readElements rest).map (n :: ·)
      else if sep = [']'] ∧ rest = [] then some [n]
      else none
  | _ => none

/-- A byte list `[b0, ..., b(L-1)]`. -/
def readBytes (ts : List Token) : Option (List Nat) :=
  if ts = [['['], [']']] then some []
  else if ts.head? = some ['['] then readElements ts.tail
  else none

/-- The commands without an operand. -/
def plainLines : List (Token × AsmLine) :=
  [("NOP".toList, .nop), ("FINS".toList, .fins), ("FINP".toList, .finp), ("CLR".toList, .clr)]

/-- The commands with one number. -/
def numberLines : List (Token × (Nat → AsmLine)) :=
  [("SBIT".toList, .sbit), ("SBYTE".toList, .sbyte), ("PBYTE".toList, .pbyte), ("DATAS".toList, .datas),
   ("DATAP".toList, .datap), ("SETCRC".toList, .setcrc),
   ("REVB.8".toList, .revb .w8), ("REVB.16".toList, .revb .w16), ("REVB.32".toList, .revb .w32),
   ("REVPB.8".toList, .revpb .w8), ("REVPB.16".toList, .revpb .w16), ("REVPB.32".toList, .revpb .w32),
   ("SWAPB.8".toList, .swapb .w8), ("SWAPB.16".toList, .swapb .w16), ("SWAPB.32".toList, .swapb .w32),
   ("CPL.8".toList, .cpl .w8), ("CPL.16".toList, .cpl .w16), ("CPL.32".toList, .cpl .w32)]

/-- `INIT <conv>`, by name or by number. -/
def readInit (t : Token) : Option AsmLine :=
  match conventionNames.lookup t with
  | some name => some (.initNamed name)
  | none => (readNumber t).map .init

/-- `SBITS <byte>`; a number that is no byte is rejected (log 14). -/
def readSbits (t : Token) : Option AsmLine :=
  match readNumber t with
  | some n => if n < 256 then some (.sbits (BitVec.ofNat 8 n)) else none
  | none => none

/-- `MSGS <conv>, [b0, ...]` and `MSGP <conv>, [b0, ...]`, after the mnemonic. -/
def readMessage (line : Nat → List Nat → AsmLine) : List Token → Option AsmLine
  | conv :: comma :: bytes =>
    if comma = [','] then
      match readConvention conv, readBytes bytes with
      | some c, some bs => some (line c bs)
      | _, _ => none
    else none
  | _ => none

/-- The line that a line's tokens write (R39). -/
def readTokens : List Token → Option AsmLine
  | [] => none
  | name :: operands =>
    if name = "INIT".toList then
      match operands with
      | [t] => readInit t
      | _ => none
    else if name = "SBITS".toList then
      match operands with
      | [t] => readSbits t
      | _ => none
    else if name = "MSGS".toList then readMessage .msgs operands
    else if name = "MSGP".toList then readMessage .msgp operands
    else
      match operands with
      | [] => plainLines.lookup name
      | [t] =>
        match numberLines.lookup name, readNumber t with
        | some line, some n => some (line n)
        | _, _ => none
      | _ => none

/-- The commands one line of text stands for; a line with nothing but a comment stands for none. -/
def assembleTextLine (line : List Char) : Option (List Instr) :=
  match tokensOf (withoutComment line) with
  | [] => some []
  | ts => (readTokens ts).bind assemble

/-- The command words of a program text, in order, or none if a line is not of the syntax. -/
def assembleText (text : List Char) : Option (List CommandWord) :=
  ((linesOf text).mapM assembleTextLine).map fun is => is.flatten.map encode

end Sys2Proof.Machine
end

