-- ==== Sys2Proof/Tests/Slice0.lean ====
section
/-! SUPPORT. The model's own tests: words written out from the spec's encodings, the spec's worked examples and vectors
(95_test_vectors.md, named V-…), ill-formed commands, and a witness for the hypotheses of every statement. -/

namespace Sys2Proof.Tests

open Sys2Proof Sys2Proof.Machine

/-- The next state of an outcome, for tests to compare. -/
def after (o : Host.Outcome State Fault Refusal) : Option State :=
  match o with
  | .next t => some t
  | .fault _ => none
  | .refused _ => none

/-- A running state with the given registers. -/
def running (crc : Word) (len : Fin 5) (conv : Convention) : State :=
  { State.reset with crc := crc, len := len, conv := conv }

/-- The halted state of 95_test_vectors.md section 2.6: `0x000000CE / 1 / 1 / 2`. -/
def halted : State := { running 0xCE 1 1 with fault := .widthViolation }

/-- One command word presented to a state. -/
def presented (s : State) (cw : CommandWord) : State := { s with pending := [.command cw] }

/-! ### Decoding: one word for each row, from the encodings and worked examples of the spec -/

theorem test_decode_nop : decode 0x0000000000#40 = .ok (.nop) := by decide
theorem test_decode_init : decode 0x1400000000#40 = .ok (.init 1) := by decide
theorem test_decode_sbit : decode 0x2000000001#40 = .ok (.sbit 1) := by decide
theorem test_decode_sbyte : decode 0x300000009A#40 = .ok (.sbyte 0x9A) := by decide
theorem test_decode_pbyte : decode 0x400000009A#40 = .ok (.pbyte 0x9A) := by decide
theorem test_decode_datas : decode 0x5000000061#40 = .ok (.datas 0x61) := by decide
theorem test_decode_datap : decode 0x6000000040#40 = .ok (.datap 0x40) := by decide
theorem test_decode_fins : decode 0x7000000000#40 = .ok (.fins) := by decide
theorem test_decode_finp : decode 0x8000000000#40 = .ok (.finp) := by decide
theorem test_decode_revb8 : decode 0x90000000A5#40 = .ok (.revb8 0xA5) := by decide
theorem test_decode_revb16 : decode 0x9400001234#40 = .ok (.revb16 0x1234) := by decide
theorem test_decode_revb32 : decode 0x9804C11DB7#40 = .ok (.revb32 0x04C11DB7) := by decide
theorem test_decode_revpb8 : decode 0xA000000001#40 = .ok (.revpb8 1) := by decide
theorem test_decode_revpb16 : decode 0xA400001234#40 = .ok (.revpb16 0x1234) := by decide
theorem test_decode_revpb32 : decode 0xA812345678#40 = .ok (.revpb32 0x12345678) := by decide
theorem test_decode_swapb8 : decode 0xB0000000A5#40 = .ok (.swapb8 0xA5) := by decide
theorem test_decode_swapb16 : decode 0xB400001234#40 = .ok (.swapb16 0x1234) := by decide
theorem test_decode_swapb32 : decode 0xB812345678#40 = .ok (.swapb32 0x12345678) := by decide
theorem test_decode_cpl8 : decode 0xC0000000A5#40 = .ok (.cpl8 0xA5) := by decide
theorem test_decode_cpl16 : decode 0xC400001234#40 = .ok (.cpl16 0x1234) := by decide
theorem test_decode_cpl32 : decode 0xC812345678#40 = .ok (.cpl32 0x12345678) := by decide

/-- Bit by bit (30_encoding.md R31): op 0101, sel 00, rsv 00, din 0x61. -/
theorem test_decode_datas_bits :
    decode 0b0101000000000000000000000000000001100001#40 = .ok (.datas 0x61) := by decide

/-- Bit by bit: op 1001, sel 01, rsv 00, din 0x1234. -/
theorem test_decode_revb16_bits :
    decode 0b1001010000000000000000000001001000110100#40 = .ok (.revb16 0x1234) := by decide

/-- Bit by bit: op 0011, sel 00, rsv 00, din 0x9A. -/
theorem test_decode_sbyte_bits :
    decode 0b0011000000000000000000000000000010011010#40 = .ok (.sbyte 0x9A) := by decide

/-- Bit by bit: op 0001, sel 11, rsv 00, din 0. -/
theorem test_decode_init_bits :
    decode 0b0001110000000000000000000000000000000000#40 = .ok (.init 3) := by decide

/-! V-F2, V-F3, V-F6, V-F7, V-F8, V-F14, V-F15, V-F16: illegal words, each by name. -/

theorem test_illegal_nop_din : decode 0x0000000001#40 = .error .dinNotZero := by decide
theorem test_illegal_rsv : decode 0x0100000000#40 = .error .reservedField := by decide
theorem test_illegal_init_din : decode 0x1000000001#40 = .error .dinNotZero := by decide
theorem test_illegal_sbit_sel : decode 0x2400000005#40 = .error .selNotZero := by decide
theorem test_illegal_fins_din : decode 0x7000000001#40 = .error .dinNotZero := by decide
theorem test_illegal_revb_width : decode 0x9C00000000#40 = .error .reservedWidth := by decide
theorem test_illegal_opcodes :
    [0xD000000000#40, 0xE000000000#40, 0xF000000000#40].map decode = List.replicate 3 (.error .reservedOpcode) := by decide

theorem test_table_word : decodeTableWord 40 0x9400001234 = some (.revb16 0x1234) := by decide
theorem test_table_word_too_long : decodeTableWord 48 0x10000000000 = none := by decide

/-! ### Well-formed commands: the largest legal operand, and one that is too wide, for each width -/

theorem test_illFormed_bit : (Instr.sbit 1).wellFormed = true ∧ (Instr.sbit 2).wellFormed = false := by decide
theorem test_illFormed_byte :
    (Instr.datas 0xFF).wellFormed = true ∧ (Instr.sbyte 0x100).wellFormed = false ∧
    (Instr.pbyte 0xFFFFFFFF).wellFormed = false ∧ (Instr.datas 0x100).wellFormed = false ∧
    (Instr.datap 0x1FF).wellFormed = false := by decide
theorem test_illFormed_width8 :
    (Instr.revb8 0x100).wellFormed = false ∧ (Instr.revpb8 0x100).wellFormed = false ∧
    (Instr.swapb8 0x1FF).wellFormed = false ∧ (Instr.cpl8 0x100).wellFormed = false := by decide
theorem test_illFormed_width16 :
    (Instr.revb16 0xFFFF).wellFormed = true ∧ (Instr.revb16 0x10000).wellFormed = false ∧
    (Instr.revpb16 0x10000).wellFormed = false ∧ (Instr.swapb16 0x10000).wellFormed = false ∧
    (Instr.cpl16 0x12345).wellFormed = false := by decide
theorem test_width32_always_fits : (Instr.revb32 0xFFFFFFFF).wellFormed = true := by decide

/-! ### The commands: the spec's worked examples and vectors -/

/-- 43_conventions.md R79: in any state NOP leaves the state. -/
theorem test_nop : after (exec .nop (running 0x12345678 4 3)) = some (running 0x12345678 4 3) := by decide

/-- 43_conventions.md R80, the example. -/
theorem test_init : (after (exec (.init 3) (running 0x12345678 4 0))).map (fun t => (t.crc, t.len, t.conv, t.result)) =
    some (0, 0, 3, 0xFFFFFFFF) := by decide

/-- 41_serial_engine.md R56, the worked example (V-S6). -/
theorem test_sbit : (after (exec (.sbit 1) (running 0x80000000 0 0))).map State.crc = some 0x04C11DB6 := by decide

/-- V-S9. -/
theorem test_sbit_all_ones : (after (exec (.sbit 1) (running 0xFFFFFFFF 0 0))).map State.crc = some 0xFB3EE248 := by decide

/-- 41_serial_engine.md R57, the worked example (V-S18); `CONV` and `LEN` do not matter. -/
theorem test_sbyte : (after (exec (.sbyte 0x9A) (running 0x12345678 2 3))).map (fun t => (t.crc, t.len)) =
    some (0x71C59884, 2) := by decide

/-- V-S17. -/
theorem test_sbyte_all_ones : (after (exec (.sbyte 0xFF) (running 0xFFFFFFFF 0 0))).map State.crc = some 0x4E08BF4B := by
  decide

/-- 42_parallel_engine.md R67, the worked example. -/
theorem test_pbyte : (after (exec (.pbyte 0x9A) (running 0x12345678 2 3))).map (fun t => (t.crc, t.len)) =
    some (0x71C59884, 2) := by decide

/-- V-S19 with the arguments swapped. -/
theorem test_pbyte_deadbeef : (after (exec (.pbyte 0x42) (running 0xDEADBEEF 0 0))).map State.crc = some 0x80AB04A1 := by
  decide

/-- 43_conventions.md R81, the example: after INIT 3. -/
theorem test_datas : (after (exec (.datas 0x61) (running 0 0 3))).map (fun t => (t.crc, t.len)) = some (0x79, 1) := by decide +kernel

/-- Program P6, the sixth byte: not complemented, and `LEN` stays 4. -/
theorem test_datas_sixth : (after (exec (.datas 0x36) (running 0x5EC4E892 4 2))).map (fun t => (t.crc, t.len)) =
    some (0x80F19961, 4) := by decide +kernel

/-- Program P6, the fifth byte. -/
theorem test_datap_fifth : (after (exec (.datap 0x35) (running 0x73B333D3 4 2))).map (fun t => (t.crc, t.len)) =
    some (0x5EC4E892, 4) := by decide

/-- Program P2, the last byte. -/
theorem test_datap : (after (exec (.datap 0xCC) (running 0x004040CC 3 0))).map (fun t => (t.crc, t.len)) =
    some (0x4040CCCC, 4) := by decide

/-- 43_conventions.md R83, the example (program P1). -/
theorem test_fins : (after (exec .fins (running 0x0079B939 3 3))).map (fun t => (t.crc, t.result)) =
    some (0xBC7DDB53, 0xC2412435) := by decide +kernel

/-- Program P3: the empty message. -/
theorem test_fins_empty : (after (exec .fins (running 0 0 3))).map (fun t => (t.crc, t.result)) = some (0xFFFFFFFF, 0) := by decide +kernel

/-- 43_conventions.md R84, the example (program P2). -/
theorem test_finp : (after (exec .finp (running 0x4040CCCC 4 0))).map State.result = some 0xC3186C47 := by decide +kernel

/-- Program P6, the end. -/
theorem test_finp_zlib : (after (exec .finp (running 0xAB4F4CB0 4 2))).map (fun t => (t.crc, t.result)) =
    some (0x9B63D02C, 0xCBF43926) := by decide +kernel

/-- V-T1. -/
theorem test_revb8 : (after (exec (.revb8 0x01) State.reset)).map State.xout = some 0x80 := by decide

/-- V-T6. -/
theorem test_revb16 : (after (exec (.revb16 0x1234) State.reset)).map State.xout = some 0x2C48 := by decide

/-- V-T10. -/
theorem test_revb32 : (after (exec (.revb32 0x04C11DB7) State.reset)).map State.xout = some 0xEDB88320 := by decide

/-- V-T12. -/
theorem test_revpb8 : (after (exec (.revpb8 0x01) State.reset)).map State.xout = some 0x80 := by decide

/-- V-T15. -/
theorem test_revpb16 : (after (exec (.revpb16 0x00FF) State.reset)).map State.xout = some 0x00FF := by decide

/-- V-T16. -/
theorem test_revpb32 : (after (exec (.revpb32 0x12345678) State.reset)).map State.xout = some 0x482C6A1E := by decide

/-- V-T18. -/
theorem test_swapb8 : (after (exec (.swapb8 0xA5) State.reset)).map State.xout = some 0xA5 := by decide

/-- V-T19. -/
theorem test_swapb16 : (after (exec (.swapb16 0x1234) State.reset)).map State.xout = some 0x3412 := by decide

/-- V-T21. -/
theorem test_swapb32 : (after (exec (.swapb32 0x12345678) State.reset)).map State.xout = some 0x78563412 := by decide

/-- V-T24. -/
theorem test_cpl8 : (after (exec (.cpl8 0x00) State.reset)).map State.xout = some 0xFF := by decide

/-- V-T27. -/
theorem test_cpl16 : (after (exec (.cpl16 0x1234) State.reset)).map State.xout = some 0xEDCB := by decide

/-- V-T29. -/
theorem test_cpl32 : (after (exec (.cpl32 0x12345678) State.reset)).map State.xout = some 0xEDCBA987 := by decide

/-! ### Faults, the halted state, reset -/

/-- V-F9, V-F12, V-T33, V-T35: too wide by one bit, or by more. -/
theorem test_overwide :
    [Instr.sbit 2, .datas 0x100, .revpb16 0x10000, .cpl16 0x12345].map (fun i => after (exec i (running 0 2 1))) =
      List.replicate 4 (some { running 0 2 1 with fault := .widthViolation }) := by decide

/-- V-F8: undecodable and too wide, IllegalCommand wins. -/
theorem test_illegal_wins : (after (step (presented State.reset 0x2400000005))).map State.faultOut = some 1 := by decide

/-- 95_test_vectors.md section 2.6: each of these words leaves the halted state as it is. -/
theorem test_halted_ignores :
    [0x5000000032#40, 0x7000000000, 0x1000000000, 0x0000000000, 0x9000000001, 0xF000000000].map
      (fun cw => after (step (presented halted cw))) = List.replicate 6 (some halted) := by decide

theorem test_halted_result : halted.result = 0xFFFFFF31 := by decide

/-- V-R2. -/
theorem test_reset_recovers : after (step { halted with pending := [.reset] }) = some State.reset := by decide

/-- The word placed for the next fetch runs. -/
theorem test_withFetchWord : (after (step (State.reset.withFetchWord 40 0x9804C11DB7))).map State.xout = some 0xEDB88320 := by
  decide

/-- Program P1, whole, from reset. -/
theorem test_program_p1 :
    resultAfter (runInputs ([0x1C00000000, 0x5000000061, 0x5000000062, 0x5000000063, 0x7000000000].map .command)
      State.reset) = some 0xC2412435 := by decide +kernel

/-! ### The functions -/

theorem test_pad : pad [0x61, 0x62] = [0x61, 0x62, 0xFF, 0xFF, 0, 0] := by decide

/-- V-S32: the message is the polynomial. -/
theorem test_polynomial_divides_itself : serialCompute [0x01, 0x04, 0xC1, 0x1D, 0xB7] = 0 := by decide +kernel

/-- V-C7, all four conventions of "123456789". -/
theorem test_conventions :
    [0, 1, 2, 3].map (fun c => convValue c [0x31, 0x32, 0x33, 0x34, 0x35, 0x36, 0x37, 0x38, 0x39]) =
      [0x89A1897F, 0xFC891918, 0xCBF43926, 0x2639F4CB] := by decide +kernel

/-- V-C7, the last column; 43_conventions.md R86. -/
theorem test_reference : referenceCrc [0x31, 0x32, 0x33, 0x34, 0x35, 0x36, 0x37, 0x38, 0x39] = 0xCBF43926 := by decide +kernel

/-- V-C20 to V-C23. -/
theorem test_itf :
    (itf 1 0 0x31, itf 1 3 0x31, itf 1 4 0x31, itf 2 0 0x61, itf 3 0 0x61, itf 2 4 0x05) =
      (0xCE, 0xCE, 0x31, 0x79, 0x79, 0xA0) := by decide

/-- V-C25 to V-C28. -/
theorem test_otf :
    (otf 1 0xFFFFFFFF, otf 1 0, otf 2 0x9B63D02C, otf 3 0x9B63D02C, otf 3 0xBC7DDB53) =
      (0, 0xFFFFFFFF, 0xCBF43926, 0x2639F4CB, 0xC2412435) := by decide

/-- 42_parallel_engine.md R62 and R68: the derivation method gives the masks. -/
theorem test_derivation_gives_the_masks :
    derivedSubsets = (List.range 32).map fun i => byteMask i ++ registerMasks.getD i 0 := by decide

/-- 42_parallel_engine.md R63: `K[j+1] = sstep(K[j], 0)`. -/
theorem test_feedback_constants :
    feedbackConstants.tail = feedbackConstants.dropLast.map fun k => sstep k false := by decide

/-- 30_encoding.md R39: the expansion of SETCRC, and numbers at the edge of 32 bits. -/
theorem test_assemble :
    assemble (.setcrc 0x12345678) = some [.init 0, .pbyte 0x12, .pbyte 0x34, .pbyte 0x56, .pbyte 0x78] ∧
    assemble (.datas 0xFFFFFFFF) = some [.datas 0xFFFFFFFF] ∧ assemble (.datas 0x100000000) = none ∧
    assemble (.init 4) = none ∧ assemble (.initNamed .bbri) = some [.init 3] := by decide

/-- 30_encoding.md R39, program P1 as text, with a comment, a blank line and both kinds of number. -/
theorem test_assemble_text :
    assembleText "INIT BBRI ; start\n\nDATAS 0x61\nDATAS 98\n  DATAS 0x63\nFINS".toList =
      some [0x1C00000000, 0x5000000061, 0x5000000062, 0x5000000063, 0x7000000000] := by decide +kernel

/-- 30_encoding.md R39: pseudo-commands and transforms as text; what is not of the syntax is rejected. -/
theorem test_assemble_text_forms :
    assembleText "MSGP 3, [0x61, 98]".toList = some [0x1C00000000, 0x6000000061, 0x6000000062, 0x8000000000] ∧
    assembleText "MSGS VANILLA, []".toList = some [0x1000000000, 0x7000000000] ∧
    assembleText "REVB.16 0x1234".toList = some [0x9400001234] ∧
    assembleText "CLR".toList = some [0x1000000000] ∧
    assembleText "INIT 4".toList = none ∧ assembleText "REVB.24 1".toList = none ∧
    assembleText "DATAS 0x100000000".toList = none ∧ assembleText "SBITS 0x81".toList =
      some [0x2000000001, 0x2000000000, 0x2000000000, 0x2000000000, 0x2000000000, 0x2000000000, 0x2000000000,
        0x2000000001] := by decide +kernel

/-! ### Witnesses: states and operands that meet the hypotheses of each statement -/

theorem witness_ResetClearsEverything :
    State.reset.Running ∧ halted.Halted ∧ after (presentInput .reset halted) = some State.reset := by decide
theorem witness_IdleHoldsTheState : halted.pending = [] := by decide
theorem witness_StepRunsDecodedCommand :
    (presented halted 0x7000000000).pending = [.command 0x7000000000] ∧ decode 0x7000000000#40 = .ok .fins := by decide
theorem witness_ChecksInOrder :
    halted.Halted ∧ State.reset.Running ∧
    decode 0xF000000000#40 = .error .reservedOpcode ∧ decode 0x5000000100#40 = .ok (.datas 0x100) ∧
    (Instr.datas 0x100).wellFormed = false ∧ decode 0x50000000FF#40 = .ok (.datas 0xFF) ∧
    (Instr.datas 0xFF).wellFormed = true := by decide
theorem witness_FaultCausesExhaustive :
    State.reset.Running ∧
    (after (presentInput (.command 0xF000000000) State.reset)).map State.fault = some .illegalCommand ∧
    (after (presentInput (.command 0x5000000100) State.reset)).map State.fault = some .widthViolation ∧
    (after (presentInput (.command 0) State.reset)).map State.fault = some .noFault := by decide
theorem witness_OverwideOperandsFault :
    State.reset.Running ∧ (Instr.datas 0x100).operand? = some 0x100 ∧
    2 ^ (Instr.datas 0x100).operandWidth ≤ (0x100 : Word).toNat ∧ (Instr.datas 0xFF).operand? = some 0xFF ∧
    (0xFF : Word).toNat < 2 ^ (Instr.datas 0xFF).operandWidth := by decide
theorem witness_FaultsArePrecise :
    (running 7 2 3).Running ∧
    (after (presentInput (.command 0x5000000100) (running 7 2 3))).map State.fault = some .widthViolation := by decide
theorem witness_HaltedIgnoresEveryWord : halted.Halted := by decide
theorem witness_OnlyResetLeavesHalt :
    halted.Halted ∧ after (presentInput (.command 0x1000000000) halted) = some halted ∧
    after (presentInput .reset halted) = some State.reset := by decide
theorem witness_EncodeInvertsDecode : decode 0x9400001234#40 = .ok (.revb16 0x1234) := by decide
theorem witness_IllegalWordsExhaustive :
    State.reset.Running ∧ rsvField 0x0100000000 ≠ 0 ∧ selField 0x2400000000 ≠ 0 ∧
    selField 0x9C00000000 = 3 ∧ dinField 0x0000000001 ≠ 0 ∧ (opField 0xD000000000).toNat = 13 := by decide
theorem witness_NopWritesNothing :
    decode 0x0000000000#40 = .ok .nop ∧ State.reset.Running ∧ opField 0x0000000001 = 0 ∧ dinField 0x0000000001 ≠ 0 ∧
    opField 0x0400000000 = 0 ∧ selField 0x0400000000 ≠ 0 ∧ opField 0x0300000000 = 0 ∧ rsvField 0x0300000000 ≠ 0 := by
  decide
/-- The illegal words of each command's own statement: its `op` with a reserved field set. -/
theorem witness_illegal_words :
    opField 0x1000000001 = 1 ∧ dinField 0x1000000001 ≠ 0 ∧ opField 0x2400000000 = 2 ∧ selField 0x2400000000 ≠ 0 ∧
    opField 0x3100000000 = 3 ∧ rsvField 0x3100000000 ≠ 0 ∧ opField 0x4400000000 = 4 ∧ selField 0x4400000000 ≠ 0 ∧
    opField 0x5300000000 = 5 ∧ rsvField 0x5300000000 ≠ 0 ∧ opField 0x6C00000000 = 6 ∧ selField 0x6C00000000 ≠ 0 ∧
    opField 0x7000000001 = 7 ∧ dinField 0x7000000001 ≠ 0 ∧ opField 0x8200000000 = 8 ∧ rsvField 0x8200000000 ≠ 0 ∧
    opField 0x9C00000000 = 9 ∧ selField 0x9C00000000 = 3 ∧ opField 0xAC00000000 = 10 ∧ selField 0xAC00000000 = 3 ∧
    opField 0xBC00000000 = 11 ∧ selField 0xBC00000000 = 3 ∧ opField 0xCC00000000 = 12 ∧ selField 0xCC00000000 = 3 := by
  decide
theorem witness_InitStartsMessage :
    State.reset.Running ∧ halted.Halted ∧ after (exec (.init 3) State.reset) = some (running 0 0 3) := by decide
theorem witness_SbitShiftsOneBit :
    State.reset.Running ∧ (1 : Word).toNat < 2 ∧ 2 ≤ (2 : Word).toNat ∧ halted.Halted := by decide
theorem witness_SbyteRunsEightBitSteps :
    State.reset.Running ∧ (0xFF : Word).toNat < 256 ∧ 256 ≤ (0x100 : Word).toNat ∧ halted.Halted := by decide
theorem witness_PbyteRunsXorEquations :
    (running 0xFFFFFF 0 0).Running ∧ (0xFF : Word).toNat < 256 ∧ (running 0xFFFFFF 0 0).crc.toNat < 2 ^ 24 ∧
    256 ≤ (0x100 : Word).toNat ∧ halted.Halted := by decide
theorem witness_DatasDividesMessageByte :
    (running 5 4 1).Running ∧ (0xFF : Word).toNat < 256 ∧ (running 5 4 1).conv = 1 ∧ (running 5 4 1).len.val = 4 ∧
    (running 5 0 0).conv = 0 ∧ (after (exec (.datas 0xFF) (running 5 4 1))).isSome = true ∧
    256 ≤ (0x100 : Word).toNat ∧ halted.Halted := by decide
theorem witness_DatapDividesMessageByte :
    (running 5 4 1).Running ∧ (0xFF : Word).toNat < 256 ∧ 256 ≤ (0x100 : Word).toNat ∧ halted.Halted := by decide
theorem witness_MessageOpen : MessageOpen (running 0x79 1 3) [0x61] :=
  ⟨by decide, by decide +kernel, by decide +kernel⟩
theorem witness_FinsFeedsSerialPad :
    (running 0x79 1 3).Running ∧ (running 0 0 3).crc = 0 ∧ (running 0 0 3).len = 0 ∧ halted.Halted := by decide
theorem witness_FinpFeedsParallelPad : (running 0x79 1 3).Running ∧ halted.Halted := by decide
theorem witness_RevbReversesBits :
    State.reset.Running ∧ (0xFF : Word).toNat < 2 ^ 8 ∧ 2 ^ 8 ≤ (0x100 : Word).toNat ∧ (0xFFFF : Word).toNat < 2 ^ 16 ∧
    2 ^ 16 ≤ (0x10000 : Word).toNat ∧ (0xFFFFFFFF : Word).toNat < 2 ^ 32 ∧ halted.Halted := by decide
theorem witness_RevpbReversesEachByte : (running 1 1 1).Running ∧ (0xFFFF : Word).toNat < 2 ^ 16 ∧
    2 ^ 16 ≤ (0x10000 : Word).toNat ∧ halted.Halted := by decide
theorem witness_SwapbReversesByteOrder : (running 1 1 1).Running ∧ (0xFFFF : Word).toNat < 2 ^ 16 ∧
    2 ^ 16 ≤ (0x10000 : Word).toNat ∧ halted.Halted := by decide
theorem witness_CplComplementsWithinWidth : (running 1 1 1).Running ∧ (0xFFFF : Word).toNat < 2 ^ 16 ∧
    2 ^ 16 ≤ (0x10000 : Word).toNat ∧ halted.Halted := by decide
theorem witness_FrameOfEveryCommand :
    after (exec (.datas 0x61) (running 0 0 3)) = some (running 0x79 1 3) ∧
    after (exec .fins halted) = some halted := by decide +kernel
theorem witness_SerialStepForms : (0x7FFFFFFF : Word).toNat < 2 ^ 31 := by decide
theorem witness_SerialEngineComputesRemainder : 4 ≤ [1, 2, 3, (4 : Byte)].length := by decide
theorem witness_PaddingRule : (0 : Nat) < [(1 : Byte)].length ∧ 4 ≤ [1, 2, 3, (4 : Byte)].length := by decide
theorem witness_ParallelOfPaddedIsSerial : [1, 2, 3, (4 : Byte)].length ≤ 4 := by decide
theorem witness_StepCountsOfTheEngines :
    (running 5 4 1).Running ∧ (1 : Word).toNat < 2 ∧ (0xFF : Word).toNat < 256 ∧
    writesNoRegister (.cpl8 0x100) = true := by decide
theorem witness_ResultBitByBit :
    (running 0 0 0).conv = 0 ∧ (running 0 0 1).conv = 1 ∧ (running 0 0 2).conv = 2 ∧ (running 0 0 3).conv = 3 := by decide
theorem witness_EveryStepKeepsTheOpenMessage :
    Tracks (presented (running 0x79 1 3) 0x5000000062) (some [0x61]) ∧
    after (step (presented (running 0x79 1 3) 0x5000000062)) = some (running 0x79B9 2 3) := by
  refine ⟨fun msg h => ?_, by decide +kernel⟩
  cases h
  exact ⟨by decide, by decide +kernel, by decide +kernel⟩
theorem witness_LenIsTheSaturatedCount :
    (running 0x79 4 3).len.val = min 7 4 ∧ countAfterInput (.command 0x5000000062) (running 0x79 4 3) 7 = 8 ∧
    (after (presentInput (.command 0x5000000062) (running 0x79 4 3))).map State.len = some 4 := by decide +kernel
theorem witness_MessageBracketComputesConvention :
    (running 5 4 1).Running ∧ BracketItem.legal (.between (.revb32 0xCBF43926)) = true ∧
    resultAfter (runInstrs (bracket 3 [.serialByte 0x61, .between .nop, .parallelByte 0x62, .serialByte 0x63] true)
      (running 5 4 1)) = some 0xC2412435 := by decide +kernel
theorem witness_CompositionLawsOfTheBlock : (running 5 4 1).Running := by decide
theorem witness_VanillaNeedsNoInitAfterReset :
    BracketItem.legal (.serialByte 0x61) = true ∧ BracketItem.legal (.parallelByte 0x62) = true ∧
    BracketItem.legal (.between .nop) = true := by decide
theorem witness_RawCommandsNeedTheCallersPadding : (running 5 4 1).Running := by decide
theorem witness_PseudoCommandsHaveTheirEffects : (running 5 4 1).Running ∧ 0xFFFFFFFF < 2 ^ 32 := by decide
theorem witness_AssemblerPlacesOperands :
    (assemble (.datas 0xFFFFFFFF)).isSome = true ∧ (assemble (.datas 0x100000000)).isSome = false := by decide
theorem witness_InvertIsTheAllOnesCrc : 4 ≤ [1, 2, 3, (4 : Byte)].length := by decide

end Sys2Proof.Tests
end

section
/-! # LEN is the saturated count of message bytes (10_state.md R12)

The ghost count and the register move alike: a command's effect turns the count `n` into `countAfterEffect i n` and `LEN`
into its saturation, and every other answer of the block (ignored, faulted) keeps both. -/

namespace Sys2Proof.Machine

/-- The count of message bytes after the effect of a command that is neither ignored nor faulted (10_state.md R12). -/
def countAfterEffect : Instr → Nat → Nat
  | .init _, _ => 0
  | .datas _, n => n + 1
  | .datap _, n => n + 1
  | _, n => n

theorem countAfterInput_of_halted {s : State} (cw : CommandWord) (n : Nat) (hs : s.Halted) :
    countAfterInput (.command cw) s n = n := if_pos hs

theorem countAfterInput_of_error {s : State} {cw : CommandWord} {e : Illegal} (n : Nat) (hd : decode cw = .error e) :
    countAfterInput (.command cw) s n = n := by
  simp [countAfterInput, hd]

theorem countAfterInput_of_wellFormed {s : State} {cw : CommandWord} {i : Instr} (n : Nat) (hs : s.Running)
    (hd : decode cw = .ok i) (hw : i.wellFormed = true) :
    countAfterInput (.command cw) s n = countAfterEffect i n := by
  rw [countAfterInput, if_neg (not_not_intro hs), hd]
  cases i
  case datas din => exact if_pos (of_decide_eq_true hw)
  case datap din => exact if_pos (of_decide_eq_true hw)
  all_goals rfl

theorem countAfterInput_of_illFormed {s : State} {cw : CommandWord} {i : Instr} (n : Nat) (hs : s.Running)
    (hd : decode cw = .ok i) (hw : i.wellFormed = false) :
    countAfterInput (.command cw) s n = n := by
  rw [countAfterInput, if_neg (not_not_intro hs), hd]
  cases i
  case init conv => simp at hw
  case datas din => exact if_neg (of_decide_eq_false hw)
  case datap din => exact if_neg (of_decide_eq_false hw)
  all_goals rfl

/-- Counting one more byte keeps the register the saturation of the count. -/
theorem countByte_of_saturated {len : Fin 5} {n : Nat} (h : len.val = min n 4) :
    (countByte len).val = min (n + 1) 4 := by
  rw [countByte_val]
  omega

theorem effectOf_len_saturated (i : Instr) {s : State} {n : Nat} (h : s.len.val = min n 4) :
    (effectOf i s).len.val = min (countAfterEffect i n) 4 := by
  cases i
  case init conv => exact (Nat.zero_min 4).symm
  case datas din => exact countByte_of_saturated h
  case datap din => exact countByte_of_saturated h
  all_goals exact h

/-- A command that runs keeps `LEN` the saturated count, whether it faults or has its effect. -/
theorem exec_len_saturated {s t : State} {cw : CommandWord} {i : Instr} {n : Nat} (hs : s.Running)
    (hd : decode cw = .ok i) (hlen : s.len.val = min n 4) (ht : exec i s = .next t) :
    t.len.val = min (countAfterInput (.command cw) s n) 4 := by
  obtain ⟨hh, -⟩ | ⟨-, hw, e⟩ | ⟨-, hw, e⟩ := exec_cases i s
  · exact absurd hs hh
  · obtain rfl := Host.Outcome.next.inj (e.symm.trans ht)
    rwa [countAfterInput_of_illFormed n hs hd hw]
  · obtain rfl := Host.Outcome.next.inj (e.symm.trans ht)
    rw [countAfterInput_of_wellFormed n hs hd hw]
    exact effectOf_len_saturated i hlen

/-- Settles O49: of everything an input can do, only reset and the effect of a command move `LEN` or the count. -/
theorem lenIsTheSaturatedCount : Obligations.LenIsTheSaturatedCount := by
  refine ⟨rfl, fun input s t n hlen ht => ?_⟩
  obtain ⟨rfl, e⟩ | ⟨cw, rfl, ⟨hs, e⟩ | ⟨-, _, hd, e⟩ | ⟨hs, i, hd, e⟩⟩ := presentInput_cases input s
  · obtain rfl := Host.Outcome.next.inj (e.symm.trans ht)
    exact (Nat.zero_min 4).symm
  · obtain rfl := Host.Outcome.next.inj (e.symm.trans ht)
    rwa [countAfterInput_of_halted cw n hs]
  · obtain rfl := Host.Outcome.next.inj (e.symm.trans ht)
    rwa [countAfterInput_of_error n hd]
  · exact exec_len_saturated hs hd hlen (e.symm.trans ht)

end Sys2Proof.Machine
end

section
/-! # The decoder, the encoder and the opcode map agree (30_encoding.md R33 to R35)

The decoder is inverted once: a word decodes to `i` exactly when it is the encoding of `i` (`decode_eq_ok_iff`). A row of
the opcode map is a command with its operand fields left free (`Instr.row`), so the map and the decoder meet in the four
fields of the word. No two rows overlap, since every row a word selects is that of a command it decodes to, and it decodes
to one command only. -/

namespace Sys2Proof

/-! ### What the decoder answers -/

theorem decodeBare_eq_ok_iff {i j : Instr} {sel : BitVec 2} {din : Word} :
    decodeBare i sel din = .ok j ↔ i = j ∧ sel = 0 ∧ din = 0 := by
  unfold decodeBare
  split_ifs <;> simp_all

theorem decodeData_eq_ok_iff {i : Word → Instr} {j : Instr} {sel : BitVec 2} {din : Word} :
    decodeData i sel din = .ok j ↔ i din = j ∧ sel = 0 := by
  unfold decodeData
  split_ifs <;> simp_all

theorem decodeTransform_eq_ok_iff {i8 i16 i32 : Word → Instr} {j : Instr} {sel : BitVec 2} {din : Word} :
    decodeTransform i8 i16 i32 sel din = .ok j ↔
      i8 din = j ∧ sel = 0 ∨ i16 din = j ∧ sel = 1 ∨ i32 din = j ∧ sel = 2 := by
  unfold decodeTransform
  split_ifs <;> simp_all

/-- What decodes under `op` is a command whose operation code, `sel` and `din` are the ones given. The cases are the arms of
`decodeOp` in order: `case2` and `case3` are INIT's with `din` non-zero and zero, `case15` is the reserved codes'. -/
theorem fields_of_decodeOp_eq_ok {op : Nat} {sel : BitVec 2} {din : Word} {i : Instr} (h : decodeOp op sel din = .ok i) :
    i.opcode.toNat = op ∧ i.sel = sel ∧ i.din = din := by
  revert h
  fun_cases decodeOp op sel din <;> intro h
  case case2 => cases h
  case case15 => cases h
  case case3 hd =>
    cases h
    exact ⟨rfl, rfl, (not_not.1 hd).symm⟩
  case case1 | case9 | case10 =>
    obtain ⟨rfl, rfl, rfl⟩ := decodeBare_eq_ok_iff.1 h
    exact ⟨rfl, rfl, rfl⟩
  case case4 | case5 | case6 | case7 | case8 =>
    obtain ⟨rfl, rfl⟩ := decodeData_eq_ok_iff.1 h
    exact ⟨rfl, rfl, rfl⟩
  case case11 | case12 | case13 | case14 =>
    obtain ⟨rfl, rfl⟩ | ⟨rfl, rfl⟩ | ⟨rfl, rfl⟩ := decodeTransform_eq_ok_iff.1 h <;> exact ⟨rfl, rfl, rfl⟩

@[simp] theorem decodeOp_fields (i : Instr) : decodeOp i.opcode.toNat i.sel i.din = .ok i := by
  cases i <;> rfl

theorem decode_of_rsvField_eq_zero {cw : CommandWord} (h : rsvField cw = 0) :
    decode cw = decodeOp (opField cw).toNat (selField cw) (dinField cw) := if_neg (not_not_intro h)

theorem decode_of_rsvField_ne_zero {cw : CommandWord} (h : rsvField cw ≠ 0) : decode cw = .error .reservedField := if_pos h

@[simp] theorem decode_encode (i : Instr) : decode (encode i) = .ok i := by
  rw [decode_of_rsvField_eq_zero (by simp [encode])]
  simp [encode]

theorem encode_of_decode_eq_ok {cw : CommandWord} {i : Instr} (h : decode cw = .ok i) : encode i = cw := by
  by_cases hr : rsvField cw = 0
  · rw [decode_of_rsvField_eq_zero hr] at h
    obtain ⟨hop, hsel, hdin⟩ := fields_of_decodeOp_eq_ok h
    calc encode i = assembleWord (opField cw) (selField cw) (rsvField cw) (dinField cw) := by
          rw [encode, BitVec.eq_of_toNat_eq hop, hsel, hdin, hr]
      _ = cw := assembleWord_fields cw
  · rw [decode_of_rsvField_ne_zero hr] at h
    cases h

/-- A word decodes to a command exactly when it is that command's encoding. -/
theorem decode_eq_ok_iff {cw : CommandWord} {i : Instr} : decode cw = .ok i ↔ encode i = cw :=
  ⟨encode_of_decode_eq_ok, fun h => h ▸ decode_encode i⟩

/-- A word is told by its four fields. -/
theorem assembleWord_eq_iff {op : BitVec 4} {sel rsv : BitVec 2} {din : Word} {cw : CommandWord} :
    assembleWord op sel rsv din = cw ↔ opField cw = op ∧ selField cw = sel ∧ rsvField cw = rsv ∧ dinField cw = din := by
  refine ⟨fun h => by simp [← h], fun ⟨hop, hsel, hrsv, hdin⟩ => ?_⟩
  rw [← hop, ← hsel, ← hrsv, ← hdin, assembleWord_fields]

/-! ### The illegal words (R34) -/

/-- The illegal patterns of R34 once `rsv` is known to be zero. -/
def IllegalFields (op : Nat) (sel : BitVec 2) (din : Word) : Prop :=
  op ∈ [13, 14, 15] ∨ (op ∈ [0, 2, 3, 4, 5, 6, 7, 8] ∧ sel ≠ 0) ∨ (op ∈ [9, 10, 11, 12] ∧ sel = 3) ∨
    (op ∈ [0, 1, 7, 8] ∧ din ≠ 0)

theorem sel_eq_three_iff {sel : BitVec 2} : sel = 3 ↔ sel ≠ 0 ∧ sel ≠ 1 ∧ sel ≠ 2 := by
  revert sel
  decide

theorem decodeBare_isError_iff {i : Instr} {sel : BitVec 2} {din : Word} :
    (∃ e, decodeBare i sel din = .error e) ↔ sel ≠ 0 ∨ din ≠ 0 := by
  unfold decodeBare
  split_ifs <;> simp_all

theorem decodeData_isError_iff {i : Word → Instr} {sel : BitVec 2} {din : Word} :
    (∃ e, decodeData i sel din = .error e) ↔ sel ≠ 0 := by
  unfold decodeData
  split_ifs <;> simp_all

theorem decodeTransform_isError_iff {i8 i16 i32 : Word → Instr} {sel : BitVec 2} {din : Word} :
    (∃ e, decodeTransform i8 i16 i32 sel din = .error e) ↔ sel = 3 := by
  rw [sel_eq_three_iff]
  unfold decodeTransform
  split_ifs <;> simp_all

theorem decodeOp_isError_iff {op : Nat} {sel : BitVec 2} {din : Word} (hop : op < 16) :
    (∃ e, decodeOp op sel din = .error e) ↔ IllegalFields op sel din := by
  fun_cases decodeOp op sel din
  case case2 hd => simpa [IllegalFields] using hd
  case case3 hd => simpa [IllegalFields] using hd
  case case15 =>
    have hres : op ∈ [13, 14, 15] := by
      simp only [imp_false] at *
      simp only [List.mem_cons, List.not_mem_nil, or_false]
      omega
    simp only [IllegalFields, hres, true_or, Except.error.injEq, exists_eq']
  case case1 | case9 | case10 => simp [IllegalFields, decodeBare_isError_iff]
  case case4 | case5 | case6 | case7 | case8 => simp [IllegalFields, decodeData_isError_iff]
  case case11 | case12 | case13 | case14 => simp [IllegalFields, decodeTransform_isError_iff]

/-- A word fails to decode exactly when `rsv` is non-zero or the other three fields are an illegal pattern. -/
theorem decode_isError_iff {cw : CommandWord} :
    (∃ e, decode cw = .error e) ↔ rsvField cw ≠ 0 ∨ IllegalFields (opField cw).toNat (selField cw) (dinField cw) := by
  by_cases hr : rsvField cw = 0
  · rw [decode_of_rsvField_eq_zero hr, decodeOp_isError_iff (opField cw).isLt]
    simp [hr]
  · exact iff_of_true ⟨_, decode_of_rsvField_ne_zero hr⟩ (.inl hr)

/-- Settles O16: a word of R34's list does not decode, and a running block answers it with IllegalCommand. -/
theorem illegalWordsExhaustive : Obligations.IllegalWordsExhaustive := by
  intro cw op illegal
  have hiff : (∃ e, decode cw = .error e) ↔ illegal :=
    decode_isError_iff.trans or_left_comm
  refine ⟨hiff, fun s hs hill => ?_⟩
  obtain ⟨e, he⟩ := hiff.2 hill
  exact Machine.presentCommand_of_error hs he

/-! ### The opcode map (R33) -/

/-- What the map fixes of `sel`: both bits, but no bit of INIT's convention. -/
def Instr.selMask : Instr → BitVec 2
  | .init _ => 0
  | _ => 3

/-- The value the map asks of `sel` under its mask. -/
def Instr.selPattern : Instr → BitVec 2
  | .init _ => 0
  | i => i.sel

/-- What the map fixes of `din`: no bit of a data operand, every bit of a field that holds none. -/
def Instr.dinMask (i : Instr) : Word :=
  match i.operand? with
  | some _ => 0
  | none => 0xFFFFFFFF

/-- The row of a command: its encoding with the operand fields left free. -/
def Instr.row (i : Instr) : OpcodeRow :=
  ⟨i.mnemonic, assembleWord i.opcode i.selPattern 0 0, assembleWord 15 i.selMask 3 i.dinMask⟩

/-- The 21 commands in the order of the map, with the given convention and data operand. -/
def commandsWith (c : Convention) (din : Word) : List Instr :=
  [.nop, .init c, .sbit din, .sbyte din, .pbyte din, .datas din, .datap din, .fins, .finp,
   .revb8 din, .revb16 din, .revb32 din, .revpb8 din, .revpb16 din, .revpb32 din,
   .swapb8 din, .swapb16 din, .swapb32 din, .cpl8 din, .cpl16 din, .cpl32 din]

/-- No operand stands in a row. -/
theorem map_row_commandsWith (c : Convention) (din : Word) :
    (commandsWith c din).map Instr.row = (commandsWith 0 0).map Instr.row := rfl

/-- The transcribed map is the list of the commands' rows, whatever their operands. -/
theorem opcodeMap_eq_map_row (c : Convention) (din : Word) : opcodeMap = (commandsWith c din).map Instr.row := by
  rw [map_row_commandsWith]
  decide

theorem mem_commandsWith (i : Instr) : i ∈ commandsWith i.sel i.din := by
  cases i <;> simp [commandsWith, Instr.sel, Instr.din, Instr.operand?]

theorem row_mem_opcodeMap (i : Instr) : i.row ∈ opcodeMap :=
  opcodeMap_eq_map_row i.sel i.din ▸ List.mem_map_of_mem (mem_commandsWith i)

@[simp] theorem opField_and (a b : CommandWord) : opField (a &&& b) = opField a &&& opField b := BitVec.extractLsb'_and
@[simp] theorem selField_and (a b : CommandWord) : selField (a &&& b) = selField a &&& selField b := BitVec.extractLsb'_and
@[simp] theorem rsvField_and (a b : CommandWord) : rsvField (a &&& b) = rsvField a &&& rsvField b := BitVec.extractLsb'_and
@[simp] theorem dinField_and (a b : CommandWord) : dinField (a &&& b) = dinField a &&& dinField b := BitVec.extractLsb'_and

/-- A word selects the row of `i` when its fields are `i`'s, up to the operand fields that the row leaves free. -/
theorem selects_row_iff (i : Instr) (cw : CommandWord) :
    i.row.selects cw = true ↔
      opField cw = i.opcode ∧ selField cw &&& i.selMask = i.selPattern ∧ rsvField cw = 0 ∧
        dinField cw &&& i.dinMask = 0 := by
  have hop : (15 : BitVec 4) = BitVec.allOnes 4 := rfl
  have hrsv : (3 : BitVec 2) = BitVec.allOnes 2 := rfl
  rw [OpcodeRow.selects, beq_iff_eq, Instr.row, eq_comm, assembleWord_eq_iff]
  simp only [opField_and, selField_and, rsvField_and, dinField_and, opField_assembleWord, selField_assembleWord,
    rsvField_assembleWord, dinField_assembleWord, hop, hrsv, BitVec.and_allOnes]

theorem row_selects_encode (i : Instr) : i.row.selects (encode i) = true := by
  rw [selects_row_iff]
  cases i <;> simp [encode, Instr.sel, Instr.selMask, Instr.selPattern, Instr.din, Instr.dinMask, Instr.operand?]

theorem din_eq_of_operand {i : Instr} {din : Word} (h : i.operand? = some din) : i.din = din := by
  rw [Instr.din, h, Option.getD_some]

theorem operand_of_mem_commandsWith {c : Convention} {din d : Word} {i : Instr} (hi : i ∈ commandsWith c din)
    (h : i.operand? = some d) : d = din := by
  cases i <;> simp_all [commandsWith, Instr.operand?]

theorem sel_of_mem_commandsWith {c : Convention} {din : Word} {i : Instr} (hi : i ∈ commandsWith c din)
    (h : c &&& i.selMask = i.selPattern) : c = i.sel := by
  cases i
  case init c' => simpa [commandsWith, Instr.sel, eq_comm] using hi
  all_goals exact BitVec.and_allOnes.symm.trans h

theorem din_of_mem_commandsWith {c : Convention} {din : Word} {i : Instr} (hi : i ∈ commandsWith c din)
    (h : din &&& i.dinMask = 0) : din = i.din := by
  match ho : i.operand? with
  | some d => rw [din_eq_of_operand ho, operand_of_mem_commandsWith hi ho]
  | none =>
    rw [Instr.dinMask, ho] at h
    rw [Instr.din, ho, Option.getD_none]
    exact BitVec.and_allOnes.symm.trans h

/-- Of the commands with a word's own operand fields, the one whose row the word selects is the command it encodes. -/
theorem encode_eq_of_row_selects {cw : CommandWord} {i : Instr} (hi : i ∈ commandsWith (selField cw) (dinField cw))
    (h : i.row.selects cw = true) : encode i = cw := by
  obtain ⟨hop, hsel, hrsv, hdin⟩ := (selects_row_iff i cw).1 h
  exact assembleWord_eq_iff.2 ⟨hop, sel_of_mem_commandsWith hi hsel, hrsv, din_of_mem_commandsWith hi hdin⟩

/-- Every row a word selects belongs to the command it decodes to. -/
theorem exists_decode_of_selects {cw : CommandWord} {r : OpcodeRow} (hr : r ∈ opcodeMap) (h : r.selects cw = true) :
    ∃ i, decode cw = .ok i ∧ i.row = r := by
  rw [opcodeMap_eq_map_row (selField cw) (dinField cw)] at hr
  obtain ⟨i, hi, rfl⟩ := List.mem_map.1 hr
  exact ⟨i, decode_eq_ok_iff.2 (encode_eq_of_row_selects hi h), rfl⟩

/-- Settles O15: a word that decodes to `i` selects `i`'s row, and every row it selects is that of the one command it
decodes to. -/
theorem decoderFollowsOpcodeMap : Obligations.DecoderFollowsOpcodeMap := by
  refine ⟨rfl, fun cw => ?_⟩
  match hd : decode cw with
  | .ok i =>
    have hcw : encode i = cw := decode_eq_ok_iff.1 hd
    obtain ⟨-, hsel, -, hdin⟩ := assembleWord_eq_iff.1 hcw
    refine ⟨⟨i.row, row_mem_opcodeMap i, hcw ▸ row_selects_encode i, rfl, fun r hr h => ?_⟩, fun din h => ?_, ?_⟩
    · obtain ⟨j, hj, rfl⟩ := exists_decode_of_selects hr h
      rw [Except.ok.inj (hj.symm.trans hd)]
    · exact (din_eq_of_operand h).symm.trans hdin.symm
    · rintro c rfl
      exact hsel.symm
  | .error e =>
    intro r hr
    by_contra h
    obtain ⟨i, hi, -⟩ := exists_decode_of_selects hr (Bool.of_not_eq_false h)
    cases hi.symm.trans hd

end Sys2Proof
end

section
/-! # The width check of 30_encoding.md R38 -/

namespace Sys2Proof.Machine

theorem wellFormed_of_operand_fits {i : Instr} {din : Word} (h : i.operand? = some din)
    (hw : din.toNat < 2 ^ i.operandWidth) : i.wellFormed = true := by
  rw [Instr.wellFormed, h]
  exact decide_eq_true hw

/-- A well-formed command does not fault a running block. -/
theorem exec_of_wellFormed_noFault {s : State} {i : Instr} (hs : s.Running) (hw : i.wellFormed = true) :
    ∃ t, exec i s = .next t ∧ t.fault = .noFault :=
  ⟨effectOf i s, exec_of_wellFormed hs hw, (effectOf_fault i s).trans hs⟩

/-- Settles O9: an operand too wide makes the command ill-formed, one that fits makes it well-formed, and `exec` answers
each by one lemma. -/
theorem overwideOperandsFault : Obligations.OverwideOperandsFault := by
  refine ⟨fun i din s hs ho hw => ?_, fun i din s hs ho hw => ?_, fun _ => ⟨rfl, rfl, rfl, rfl, rfl⟩, ?_, ?_, ?_⟩
  · exact exec_of_illFormed hs ((wellFormed_eq_false_iff i).2 ⟨din, ho, hw⟩)
  · exact exec_of_wellFormed_noFault hs (wellFormed_of_operand_fits ho hw)
  · simp [Instr.operandWidth]
  · simp [Instr.operandWidth]
  · simp [Instr.operandWidth]

end Sys2Proof.Machine
end

section
/-! # The transform commands (40_transforms.md R44 to R48)

All twelve rows have one shape (`TransformRow`): the encoding of an operation code and a width code, and the template of R44
around a function on `w` bits. What the template makes of a row is shown once (`TransformRow.meetsTemplate`) and for a
family of three widths once (`family_meetsTemplate`); REVB, REVPB, SWAPB and CPL then differ in the value of their function
only. -/

namespace Sys2Proof.Machine

/-! ### The words of a transform -/

/-- Adding an operand to a word whose `din` is zero places it there. -/
theorem assembleWord_zero_add (op : BitVec 4) (sel rsv : BitVec 2) (din : Word) :
    assembleWord op sel rsv 0 + din.setWidth 40 = assembleWord op sel rsv din := by
  rw [BitVec.add_eq_or_of_and_eq_zero]
  · refine BitVec.eq_of_getLsbD_eq fun i hi => ?_
    rw [BitVec.getLsbD_or, getLsbD_assembleWord, getLsbD_assembleWord, BitVec.getLsbD_setWidth]
    by_cases h : i < 32
    · simp [h, hi]
    · simp [h, BitVec.getLsbD_of_ge din i (by omega)]
  · refine BitVec.eq_of_getLsbD_eq fun i hi => ?_
    rw [BitVec.getLsbD_and, getLsbD_assembleWord, BitVec.getLsbD_setWidth]
    by_cases h : i < 32
    · simp [h]
    · simp [BitVec.getLsbD_of_ge din i (by omega)]

/-- The illegal words of a transform's operation code: the reserved width, or a reserved field that is not zero. -/
theorem decode_isError_of_transform {cw : CommandWord} (hop : (opField cw).toNat ∈ [9, 10, 11, 12])
    (h : selField cw = 3 ∨ rsvField cw ≠ 0) : ∃ e, decode cw = .error e :=
  decode_isError_iff.2 (h.symm.imp_right fun hsel => .inr (.inr (.inl ⟨hop, hsel⟩)))

/-! ### The template (R44) -/

/-- The command `i` is the row of `op` and `sel` in the opcode map and runs the template around `f`. -/
structure TransformRow (op : BitVec 4) (sel : BitVec 2) (w : Nat) (f : BitVec w → BitVec w) (i : Word → Instr) : Prop where
  encode_eq : ∀ din, encode (i din) = assembleWord op sel 0 din
  exec_eq : ∀ din s, exec (i din) s = .next (transformCommand w f din s)

/-- What R44 says of the row with the match value `base`, when `value din x` says that `x` is the answer to `din`. -/
def MeetsTemplate (w : Nat) (base : CommandWord) (i : Word → Instr) (value : Word → Word → Prop) : Prop :=
  ∀ din : Word,
    decode (base + din.setWidth 40) = .ok (i din) ∧
    (∀ s : State, s.Running → din.toNat < 2 ^ w → ∃ x : Word, exec (i din) s = .next { s with xout := x } ∧ value din x) ∧
    (∀ s : State, s.Running → 2 ^ w ≤ din.toNat →
      exec (i din) s = .next { s with fault := .widthViolation, xout := 0 }) ∧
    (∀ s : State, s.Halted → exec (i din) s = .next { s with xout := 0 })

theorem TransformRow.meetsTemplate {op : BitVec 4} {sel : BitVec 2} {w : Nat} {f : BitVec w → BitVec w} {i : Word → Instr}
    {value : Word → Word → Prop} (row : TransformRow op sel w f i)
    (hvalue : ∀ din, OperandFits w din → value din ((f (wordOperand w din)).setWidth 32)) :
    MeetsTemplate w (assembleWord op sel 0 0) i value := by
  refine fun din => ⟨?_, fun s hs hw => ⟨_, ?_, hvalue din hw⟩, fun s hs hw => ?_, fun s => exec_of_halted (i din)⟩
  · rw [assembleWord_zero_add, ← row.encode_eq, decode_encode]
  · rw [row.exec_eq, transformCommand, withOperand_of_fits _ hs hw, driveXout]
  · rw [row.exec_eq, transformCommand, withOperand_of_wide _ hs hw.not_gt, takeFault]

/-- The three rows of one operation code meet the template when the value of `f` is right at widths that are whole bytes
within a word. -/
theorem family_meetsTemplate {op : BitVec 4} {f : ∀ w, BitVec w → BitVec w} {i8 i16 i32 : Word → Instr}
    {value : Nat → Word → Word → Prop} (row8 : TransformRow op 0 8 (f 8) i8) (row16 : TransformRow op 1 16 (f 16) i16)
    (row32 : TransformRow op 2 32 (f 32) i32)
    (hvalue : ∀ w din, w ≤ 32 → 8 ∣ w → OperandFits w din → value w din ((f w (wordOperand w din)).setWidth 32)) :
    ∀ p ∈ [(8, assembleWord op 0 0 0, i8), (16, assembleWord op 1 0 0, i16), (32, assembleWord op 2 0 0, i32)],
      MeetsTemplate p.1 p.2.1 p.2.2 (value p.1) := by
  simp only [List.forall_mem_cons]
  exact ⟨row8.meetsTemplate fun din => hvalue 8 din (by decide) (by decide),
    row16.meetsTemplate fun din => hvalue 16 din (by decide) (by decide),
    row32.meetsTemplate fun din => hvalue 32 din (by decide) (by decide), List.forall_mem_nil _⟩

/-! ### Bits of the operand and of the zero-extended answer -/

theorem getLsbD_wordOperand (w : Nat) (din : Word) (i : Nat) :
    (wordOperand w din).getLsbD i = (decide (i < w) && din.getLsbD i) := BitVec.getLsbD_setWidth w din i

theorem toNat_zext_lt {w : Nat} (hw : w ≤ 32) (x : BitVec w) : (x.setWidth 32).toNat < 2 ^ w := by
  rw [BitVec.toNat_setWidth_of_le hw]
  exact x.isLt

theorem getLsbD_zext {w : Nat} (hw : w ≤ 32) (x : BitVec w) (i : Nat) : (x.setWidth 32).getLsbD i = x.getLsbD i := by
  rw [BitVec.getLsbD_setWidth]
  by_cases h : i < 32
  · simp [h]
  · simp [BitVec.getLsbD_of_ge x i (by omega)]

/-! ### The four functions -/

/-- `x` is `din` with its `w` bits reversed (R40). -/
def RevbValue (w : Nat) (din x : Word) : Prop :=
  ∀ i, x.getLsbD i = (decide (i < w) && din.getLsbD (w - 1 - i))

theorem revbValue_reverseBits {w : Nat} (din : Word) (hw : w ≤ 32) :
    RevbValue w din ((reverseBits (wordOperand w din)).setWidth 32) := by
  intro i
  rw [getLsbD_zext hw, getLsbD_reverseBits, getLsbD_wordOperand]
  by_cases h : i < w
  · rw [decide_eq_true (show w - 1 - i < w by omega), Bool.true_and]
  · rw [decide_eq_false h, Bool.false_and, Bool.false_and]

/-- `x` is `din` with the bits of each of its `w / 8` bytes reversed (R41). -/
def RevpbValue (w : Nat) (din x : Word) : Prop :=
  x.toNat < 2 ^ w ∧ ∀ k j, 8 * k < w → j < 8 → x.getLsbD (8 * k + j) = din.getLsbD (8 * k + 7 - j)

theorem revpbValue_reverseBitsPerByte {w : Nat} (din : Word) (hw : w ≤ 32) (hb : 8 ∣ w) :
    RevpbValue w din ((reverseBitsPerByte (wordOperand w din)).setWidth 32) := by
  refine ⟨toNat_zext_lt hw _, fun k j hk hj => ?_⟩
  have hdst : 8 * k + j < w := by omega
  have hsrc : 8 * k + 7 - j < w := by omega
  have hpos : 8 * ((8 * k + j) / 8) + (7 - (8 * k + j) % 8) = 8 * k + 7 - j := by omega
  rw [getLsbD_zext hw, getLsbD_reverseBitsPerByte, hpos, getLsbD_wordOperand, decide_eq_true hdst, decide_eq_true hsrc,
    Bool.true_and, Bool.true_and]

/-- `x` is `din` with its `w / 8` bytes in reverse order (R42). -/
def SwapbValue (w : Nat) (din x : Word) : Prop :=
  x.toNat < 2 ^ w ∧ ∀ k, k < w / 8 → x.extractLsb' (8 * k) 8 = din.extractLsb' (8 * (w / 8 - 1 - k)) 8

theorem swapbValue_reverseByteOrder {w : Nat} (din : Word) (hw : w ≤ 32) :
    SwapbValue w din ((reverseByteOrder (wordOperand w din)).setWidth 32) := by
  refine ⟨toNat_zext_lt hw _, fun k hk => BitVec.eq_of_getLsbD_eq fun j hj => ?_⟩
  have hdst : 8 * k + j < w := by omega
  have hsrc : 8 * (w / 8 - 1 - k) + j < w := by omega
  have hbyte : (8 * k + j) / 8 = k := by omega
  have hbit : (8 * k + j) % 8 = j := by omega
  rw [BitVec.getLsbD_extractLsb', BitVec.getLsbD_extractLsb', getLsbD_zext hw, getLsbD_reverseByteOrder, hbyte, hbit,
    getLsbD_wordOperand, decide_eq_true hdst, decide_eq_true hsrc, Bool.true_and, Bool.true_and]

/-- `x` is the complement of `din` within `w` bits (R43). -/
def CplValue (w : Nat) (din x : Word) : Prop := x.toNat = 2 ^ w - 1 - din.toNat

theorem cplValue_complement {w : Nat} {din : Word} (hw : w ≤ 32) (hfits : OperandFits w din) :
    CplValue w din ((complement (wordOperand w din)).setWidth 32) := by
  rw [CplValue, BitVec.toNat_setWidth_of_le hw, complement_eq_not, BitVec.toNat_not, toNat_wordOperand hfits]

/-! ### The obligations

Each statement is, by unfolding alone, that of `family_meetsTemplate` for its operation code and value: the match values it
writes as numbers are the words `assembleWord op sel 0 0`. -/

/-- Settles O27: REVB is the template around `reverseBits`. -/
theorem revbReversesBits : Obligations.RevbReversesBits :=
  ⟨fun _ hop => decode_isError_of_transform (by simp [hop]),
    family_meetsTemplate (op := 9) (f := @reverseBits) (value := RevbValue)
      ⟨fun _ => rfl, fun _ _ => rfl⟩ ⟨fun _ => rfl, fun _ _ => rfl⟩ ⟨fun _ => rfl, fun _ _ => rfl⟩
      fun _ din hw _ _ => revbValue_reverseBits din hw⟩

/-- Settles O28: REVPB is the template around `reverseBitsPerByte`. -/
theorem revpbReversesEachByte : Obligations.RevpbReversesEachByte :=
  ⟨fun _ hop => decode_isError_of_transform (by simp [hop]),
    family_meetsTemplate (op := 10) (f := @reverseBitsPerByte) (value := RevpbValue)
      ⟨fun _ => rfl, fun _ _ => rfl⟩ ⟨fun _ => rfl, fun _ _ => rfl⟩ ⟨fun _ => rfl, fun _ _ => rfl⟩
      fun _ din hw hb _ => revpbValue_reverseBitsPerByte din hw hb⟩

/-- Settles O29: SWAPB is the template around `reverseByteOrder`. -/
theorem swapbReversesByteOrder : Obligations.SwapbReversesByteOrder :=
  ⟨fun _ hop => decode_isError_of_transform (by simp [hop]),
    family_meetsTemplate (op := 11) (f := @reverseByteOrder) (value := SwapbValue)
      ⟨fun _ => rfl, fun _ _ => rfl⟩ ⟨fun _ => rfl, fun _ _ => rfl⟩ ⟨fun _ => rfl, fun _ _ => rfl⟩
      fun _ din hw _ _ => swapbValue_reverseByteOrder din hw⟩

/-- Settles O30: CPL is the template around `complement`. -/
theorem cplComplementsWithinWidth : Obligations.CplComplementsWithinWidth :=
  ⟨fun _ hop => decode_isError_of_transform (by simp [hop]),
    family_meetsTemplate (op := 12) (f := @complement) (value := CplValue)
      ⟨fun _ => rfl, fun _ _ => rfl⟩ ⟨fun _ => rfl, fun _ _ => rfl⟩ ⟨fun _ => rfl, fun _ _ => rfl⟩
      fun _ _ hw _ hfits => cplValue_complement hw hfits⟩

end Sys2Proof.Machine
end

section
/-! # The bit step and the byte step (41_serial_engine.md R50, R51; 42_parallel_engine.md R64) -/

namespace Sys2Proof.Machine

/-- The 32-bit form of R50: XORing the 33-bit constant clears bit 32 exactly when it is set. -/
theorem sstep_eq (r : Word) (b : Bool) :
    sstep r b = (r <<< 1 ||| (BitVec.ofBool b).setWidth 32) ^^^ (if r.getLsbD 31 then Config.poly else 0) := by
  have htop : ((r.setWidth 33 <<< 1) ||| (BitVec.ofBool b).setWidth 33).getLsbD 32 = r.getLsbD 31 := by simp
  have hlow : ((r.setWidth 33 <<< 1) ||| (BitVec.ofBool b).setWidth 33).setWidth 32 =
      r <<< 1 ||| (BitVec.ofBool b).setWidth 32 := by
    refine BitVec.eq_of_getLsbD_eq fun i hi => ?_
    simp [hi]
  have hpoly : Config.poly33.setWidth 32 = Config.poly := rfl
  rw [sstep, htop]
  split
  · rw [BitVec.setWidth_xor, hlow, hpoly]
  · exact hlow.trans BitVec.xor_zero.symm

/-- The per-bit form of R50: a shift, and the bit shifted out added where the polynomial has a bit. -/
theorem getLsbD_sstep (r : Word) (b : Bool) {j : Nat} (hj : j < 32) :
    (sstep r b).getLsbD j =
      ((if j = 0 then b else r.getLsbD (j - 1)) ^^ (Config.poly.getLsbD j && r.getLsbD 31)) := by
  have hshift : (r <<< 1 ||| (BitVec.ofBool b).setWidth 32).getLsbD j = if j = 0 then b else r.getLsbD (j - 1) := by
    rcases j with - | j
    · simp
    · simp [hj, BitVec.getLsbD_eq_getElem (show j < 32 by omega)]
  rw [sstep_eq, BitVec.getLsbD_xor, hshift]
  cases r.getLsbD 31 <;> simp

theorem sbyte_eq (r : Word) (d : Byte) :
    sbyte r d = sstep (sstep (sstep (sstep (sstep (sstep (sstep (sstep r (d.getLsbD 7)) (d.getLsbD 6)) (d.getLsbD 5))
      (d.getLsbD 4)) (d.getLsbD 3)) (d.getLsbD 2)) (d.getLsbD 1)) (d.getLsbD 0) := rfl

/-- R64: each of the 32 equations is the per-bit form applied eight times, its XORs rearranged. -/
theorem pstep_eq_sbyte (d : Byte) (r : Word) : pstep d r = sbyte r d := by
  refine BitVec.eq_of_getLsbD_eq fun i hi => ?_
  rw [getLsbD_pstep, decide_eq_true hi, Bool.true_and, sbyte_eq]
  interval_cases i <;>
    simp only [xorEquation, getLsbD_sstep, Config.poly, BitVec.reduceGetLsb, Nat.reduceLT, Nat.reduceSub,
      Nat.reduceEqDiff, ↓reduceIte, Bool.true_and, Bool.false_and, Bool.false_xor, Bool.xor_assoc, Bool.xor_comm,
      Bool.xor_left_comm, Bool.xor_self, Bool.bne_self_left]

end Sys2Proof.Machine
end

section
/-! # Runs of well-formed commands (30_encoding.md R38, 20_memory.md R27) -/

namespace Sys2Proof.Machine

/-- A well-formed command at the head of a run has its effect, and the run goes on from there. -/
theorem runInstrs_cons {i : Instr} {s : State} (is : List Instr) (hs : s.Running) (hw : i.wellFormed = true) :
    runInstrs (i :: is) s = runInstrs is (effectOf i s) := by
  have hstep : step { s with pending := presentInstr i :: is.map presentInstr } =
      .next { effectOf i s with pending := is.map presentInstr } := by
    rw [step_of_cons rfl, presentInstr, presentInput, presentCommand_of_ok (decode_encode i),
      exec_of_wellFormed (s := { s with pending := is.map presentInstr }) hs hw, effectOf_pending]
  exact (runInputs_cons hstep rfl).trans (runInputs_pending _ _ _)

/-- A run of well-formed commands composes their effects, and takes the whole stream. -/
theorem runInstrs_of_wellFormed {is : List Instr} {s : State} (hs : s.Running)
    (hw : ∀ i ∈ is, i.wellFormed = true) :
    runInstrs is s = .next { is.foldl (fun s i => effectOf i s) s with pending := [] } := by
  induction is generalizing s with
  | nil => rfl
  | cons i is ih =>
    obtain ⟨hi, his⟩ := List.forall_mem_cons.1 hw
    rw [runInstrs_cons is hs hi, ih ((effectOf_fault i s).trans hs) his, List.foldl_cons]

end Sys2Proof.Machine
end

section
/-! # The commands with a data operand and no `sel` (30_encoding.md R33, R34, R36) -/

namespace Sys2Proof.Machine

/-- The match value of a row plus an operand is the command's word. -/
theorem decode_matchValue_add {i : Instr} {op : BitVec 4} {sel : BitVec 2} {din : Word}
    (h : encode i = assembleWord op sel 0 din) : decode (assembleWord op sel 0 0 + din.setWidth 40) = .ok i := by
  rw [assembleWord_zero_add, ← h, decode_encode]

/-- The illegal words of these commands' operation codes: `sel` or `rsv` is not zero. -/
theorem decode_isError_of_data {cw : CommandWord} (hop : (opField cw).toNat ∈ [2, 3, 4, 5, 6])
    (h : selField cw ≠ 0 ∨ rsvField cw ≠ 0) : ∃ e, decode cw = .error e := by
  have hbare : (opField cw).toNat ∈ [0, 2, 3, 4, 5, 6, 7, 8] := by
    simp only [List.mem_cons, List.not_mem_nil, or_false] at hop ⊢
    omega
  exact decode_isError_iff.2 (h.symm.imp_right fun hsel => .inr (.inl ⟨hbare, hsel⟩))

/-! ### The operand an engine takes -/

/-- A one-bit operand is the zero-extension of its bit. -/
theorem setWidth_bitOperand {din : Word} (h : din.toNat < 2) : (BitVec.ofBool (bitOperand din)).setWidth 32 = din := by
  have hdin : din = 0 ∨ din = 1 := by
    simp only [← BitVec.toNat_inj, BitVec.ofNat_eq_ofNat, BitVec.toNat_ofNat]
    omega
  rcases hdin with rfl | rfl <;> rfl

@[simp] theorem bitOperand_byteBitOperand (d : Byte) (k : Nat) : bitOperand (byteBitOperand d k) = d.getLsbD k := by
  simp [bitOperand, byteBitOperand]

theorem byteBitOperand_lt_two (d : Byte) (k : Nat) : (byteBitOperand d k).toNat < 2 := toNat_zext_lt (by decide) _

theorem zext_byte_lt (d : Byte) : (d.setWidth 32).toNat < 256 := toNat_zext_lt (by decide) d

@[simp] theorem byteOperand_setWidth (d : Byte) : byteOperand (d.setWidth 32) = d := by
  simp [byteOperand]

end Sys2Proof.Machine
end

section
/-! # SBIT and SBYTE (41_serial_engine.md R56, R57) -/

namespace Sys2Proof.Machine

/-- R51 on an operand: the eight bit steps take the bits of `din` itself. -/
theorem sbyte_byteOperand (r din : Word) :
    sbyte r (byteOperand din) =
      sstep (sstep (sstep (sstep (sstep (sstep (sstep (sstep r (din.getLsbD 7)) (din.getLsbD 6)) (din.getLsbD 5))
        (din.getLsbD 4)) (din.getLsbD 3)) (din.getLsbD 2)) (din.getLsbD 1)) (din.getLsbD 0) := by
  rw [sbyte_eq]
  simp only [byteOperand, BitVec.getLsbD_setWidth, Nat.reduceLT, decide_true, Bool.true_and]

/-- R56 on an operand that fits: the bit step takes `din` itself. -/
theorem sstep_bitOperand (r : Word) {din : Word} (h : din.toNat < 2) :
    sstep r (bitOperand din) = (r <<< 1 ||| din) ^^^ (if r.getLsbD 31 then Config.poly else 0) := by
  rw [sstep_eq, setWidth_bitOperand h]

/-- Settles O20: SBIT is well-formed exactly below 2, and its effect is one bit step in the 32-bit form. -/
theorem sbitShiftsOneBit : Obligations.SbitShiftsOneBit := by
  refine ⟨fun din => decode_matchValue_add (op := 2) (sel := 0) rfl,
    fun cw hop => decode_isError_of_data (by simp [hop]),
    fun din s hs hw => ?_, fun din s hs hw => ?_, fun din s => exec_of_halted (.sbit din)⟩
  · rw [exec_of_wellFormed (i := .sbit din) hs (decide_eq_true hw), effectOf, sstep_bitOperand s.crc hw]
    rfl
  · exact exec_of_illFormed hs (decide_eq_false hw.not_gt)

/-- One SBYTE on a byte runs the byte loop. -/
theorem runInstrs_sbyte {s : State} (d : Byte) (hs : s.Running) :
    runInstrs [.sbyte (d.setWidth 32)] s = .next { writeCrc (sbyte s.crc d) s with pending := [] } := by
  rw [runInstrs_cons (i := .sbyte _) [] hs (decide_eq_true (zext_byte_lt d)), effectOf, byteOperand_setWidth]
  rfl

/-- One PBYTE on a byte runs the byte loop, its parallel step being the same function (R64). -/
theorem runInstrs_pbyte {s : State} (d : Byte) (hs : s.Running) :
    runInstrs [.pbyte (d.setWidth 32)] s = .next { writeCrc (sbyte s.crc d) s with pending := [] } := by
  rw [runInstrs_cons (i := .pbyte _) [] hs (decide_eq_true (zext_byte_lt d)), effectOf, byteOperand_setWidth,
    pstep_eq_sbyte]
  rfl

/-- The eight SBITs of a byte, most-significant bit first, run the byte loop (R57). -/
theorem runInstrs_sbits {s : State} (d : Byte) (hs : s.Running) :
    runInstrs ([7, 6, 5, 4, 3, 2, 1, 0].map fun k => .sbit (byteBitOperand d k)) s =
      .next { writeCrc (sbyte s.crc d) s with pending := [] } := by
  rw [runInstrs_of_wellFormed hs]
  · simp only [List.map_cons, List.map_nil, List.foldl_cons, List.foldl_nil, effectOf, bitOperand_byteBitOperand]
    rfl
  · exact List.forall_mem_map.2 fun k _ => decide_eq_true (byteBitOperand_lt_two d k)

/-- Settles O21: SBYTE is well-formed exactly below 256 and its effect is the byte loop, which the eight SBITs and PBYTE
run too. -/
theorem sbyteRunsEightBitSteps : Obligations.SbyteRunsEightBitSteps := by
  refine ⟨fun din => decode_matchValue_add (op := 3) (sel := 0) rfl,
    fun cw hop => decode_isError_of_data (by simp [hop]), fun din s hs hw => ?_,
    fun d s hs => ⟨_, runInstrs_sbyte d hs, runInstrs_sbits d hs, runInstrs_pbyte d hs⟩,
    fun din s hs hw => ?_, fun din s => exec_of_halted (.sbyte din)⟩
  · rw [exec_of_wellFormed (i := .sbyte din) hs (decide_eq_true hw), effectOf, sbyte_byteOperand]
    rfl
  · exact exec_of_illFormed hs (decide_eq_false hw.not_gt)

end Sys2Proof.Machine
end

section
/-! # The padding rule (41_serial_engine.md R53) -/

namespace Sys2Proof.Machine

@[simp] theorem length_padBytes (len : Nat) : (padBytes len).length = 4 := rfl

theorem getElem?_padBytes (len : Nat) {k : Nat} (hk : k < 4) : (padBytes len)[k]? = some (padByte len k) := by
  interval_cases k <;> rfl

theorem padByte_of_ge {len : Nat} (h : 4 ≤ len) (k : Nat) : padByte len k = 0 := if_neg (by omega)

/-- A message of four bytes or more is padded with zeros. -/
theorem padBytes_of_ge {len : Nat} (h : 4 ≤ len) : padBytes len = [0, 0, 0, 0] := by
  rw [padBytes, padByte_of_ge h, padByte_of_ge h, padByte_of_ge h, padByte_of_ge h]

theorem length_pad (m : List Byte) : (pad m).length = m.length + 4 := by
  rw [pad, List.length_append, length_padBytes]

/-- Past the message stand the pad bytes of its length. -/
theorem getElem?_pad_add (m : List Byte) {k : Nat} (hk : k < 4) :
    (pad m)[m.length + k]? = some (padByte m.length k) := by
  rw [pad, List.getElem?_append_right (Nat.le_add_right _ _), Nat.add_sub_cancel_left, getElem?_padBytes _ hk]

theorem pad_of_ge {m : List Byte} (h : 4 ≤ m.length) : pad m = m ++ [0, 0, 0, 0] := by
  rw [pad, padBytes_of_ge h]

/-- Settles O38: `pad` appends four bytes, the one at position `L + k` being `padByte L k`; the rows of R53's table
below four bytes hold by computation. -/
theorem paddingRule : Obligations.PaddingRule := fun m =>
  ⟨length_pad m, fun _ => List.getElem?_append_left, fun _ => getElem?_pad_add m, pad_of_ge, rfl,
    fun _ _ _ => ⟨rfl, rfl, rfl⟩⟩

end Sys2Proof.Machine
end

section
/-! # PBYTE and the parallel byte step (42_parallel_engine.md R64, R67) -/

namespace Sys2Proof.Machine

/-- Settles O39: R64 is `pstep_eq_sbyte`. -/
theorem parallelStepEqualsSerialStep : Obligations.ParallelStepEqualsSerialStep := pstep_eq_sbyte

/-- R61 below a clear top byte: every equation has one source bit that is not among `c[24..31]`, the bit eight places
below. -/
theorem xorEquation_of_clear_top {d c : Nat → Bool} (hc : ∀ j, 24 ≤ j → c j = false) {i : Nat} (hi : i < 32) :
    xorEquation d c i = if i < 8 then d i else c (i - 8) := by
  interval_cases i <;> simp [xorEquation, hc]

/-- R67's corner case: with a clear top byte nothing is fed back, and the byte step is a plain byte shift. -/
theorem pstep_byteOperand_of_clear_top {r din : Word} (hr : r.toNat < 2 ^ 24) (hdin : OperandFits 8 din) :
    pstep (byteOperand din) r = r <<< 8 ||| din := by
  have hclear (j : Nat) (hj : 24 ≤ j) : r.getLsbD j = false :=
    Nat.testBit_lt_two_pow (hr.trans_le (Nat.pow_le_pow_right Nat.two_pos hj))
  refine BitVec.eq_of_getLsbD_eq fun i hi => ?_
  rw [getLsbD_pstep, decide_eq_true hi, Bool.true_and, xorEquation_of_clear_top hclear hi, BitVec.getLsbD_or,
    BitVec.getLsbD_shiftLeft]
  by_cases h : i < 8
  · simp [h, byteOperand]
  · have hhigh : din.getLsbD i = false :=
      Nat.testBit_lt_two_pow (hdin.trans_le (Nat.pow_le_pow_right Nat.two_pos (Nat.le_of_not_lt h)))
    rw [hhigh]
    simp [h, hi]

/-- PBYTE on an operand that fits writes the byte step of `CRC`. -/
theorem exec_pbyte_of_fits {s : State} {din : Word} (hs : s.Running) (hw : OperandFits 8 din) :
    exec (.pbyte din) s = .next (writeCrc (pstep (byteOperand din) s.crc) s) :=
  exec_of_wellFormed hs (decide_eq_true hw)

/-- On an operand that fits, PBYTE and SBYTE run the same function (R64). -/
theorem exec_pbyte_eq_exec_sbyte {s : State} {din : Word} (hs : s.Running) (hw : OperandFits 8 din) :
    exec (.pbyte din) s = exec (.sbyte din) s := by
  rw [exec_pbyte_of_fits hs hw, pstep_eq_sbyte, exec_of_wellFormed (i := .sbyte din) hs (decide_eq_true hw), effectOf]

/-- Settles O22: PBYTE is well-formed exactly below 256 and its effect is the parallel step, which is SBYTE's and, below a
clear top byte, a plain byte shift. -/
theorem pbyteRunsXorEquations : Obligations.PbyteRunsXorEquations := by
  refine ⟨fun din => decode_matchValue_add (op := 4) (sel := 0) rfl,
    fun cw hop => decode_isError_of_data (by simp [hop]), fun din s hs hw => exec_pbyte_of_fits hs hw,
    fun din s hs hw hcrc => ?_, fun din s hs hw => exec_pbyte_eq_exec_sbyte hs hw,
    fun din s hs hw => exec_of_illFormed hs (decide_eq_false hw.not_gt), fun din s => exec_of_halted (.pbyte din)⟩
  rw [exec_pbyte_of_fits hs hw, pstep_byteOperand_of_clear_top hcrc hw]
  rfl

end Sys2Proof.Machine
end

section
/-! # NOP and INIT (43_conventions.md R79, R80) -/

namespace Sys2Proof.Machine

/-- The illegal words of NOP, FINS and FINP: a field that is not zero. -/
theorem decode_isError_of_bare {cw : CommandWord} (hop : (opField cw).toNat ∈ [0, 7, 8])
    (h : selField cw ≠ 0 ∨ rsvField cw ≠ 0 ∨ dinField cw ≠ 0) : ∃ e, decode cw = .error e := by
  have noSel : [0, 7, 8] ⊆ [0, 2, 3, 4, 5, 6, 7, 8] := by decide
  have noDin : [0, 7, 8] ⊆ [0, 1, 7, 8] := by decide
  obtain hsel | hrsv | hdin := h
  · exact decode_isError_iff.2 (.inr (.inr (.inl ⟨noSel hop, hsel⟩)))
  · exact decode_isError_iff.2 (.inl hrsv)
  · exact decode_isError_iff.2 (.inr (.inr (.inr (.inr ⟨noDin hop, hdin⟩))))

/-- NOP in a running state and an ignored command in a halted one do the same. -/
theorem exec_nop (s : State) : exec .nop s = .next (ignoreCommand s) := by
  by_cases hs : s.Running
  · exact exec_of_wellFormed hs rfl
  · exact exec_of_halted _ hs

/-- Settles O18: the word 0 is NOP's encoding, and its near misses are illegal words. -/
theorem nopWritesNothing : Obligations.NopWritesNothing := by
  refine ⟨⟨decode_eq_ok_iff.2 rfl, fun cw h => (decode_eq_ok_iff.1 h).symm⟩, fun cw s hop h hs => ?_, exec_nop⟩
  obtain ⟨e, he⟩ := decode_isError_of_bare (by simp [hop]) h
  exact presentCommand_of_error hs he

theorem encode_init (c : Convention) : encode (.init c) = 0x1000000000#40 + c.setWidth 40 <<< 34 := by
  revert c
  decide

/-- The illegal words of INIT: a reserved field or a data operand that is not zero. -/
theorem decode_isError_of_init {cw : CommandWord} (hop : (opField cw).toNat = 1)
    (h : rsvField cw ≠ 0 ∨ dinField cw ≠ 0) : ∃ e, decode cw = .error e :=
  decode_isError_iff.2 (h.imp_right fun hdin => .inr (.inr (.inr ⟨by simp [hop], hdin⟩)))

theorem exec_init {s : State} (c : Convention) (hs : s.Running) : exec (.init c) s = .next (effectOf (.init c) s) :=
  exec_of_wellFormed hs rfl

/-- `RESULT` before the first message byte (R80). -/
theorem otf_zero (c : Convention) : otf c 0 = if c = 0 then 0x00000000#32 else 0xFFFFFFFF#32 := by
  revert c
  decide

/-- Settles O19: INIT's effect writes every register but `FAULT`, and a second INIT writes the same values. -/
theorem initStartsMessage : Obligations.InitStartsMessage := by
  refine ⟨fun c => decode_eq_ok_iff.2 (encode_init c), fun cw hop => decode_isError_of_init (by simp [hop]),
    fun c s hs => exec_init c hs, fun c s t hs ht => ?_, fun c s => exec_of_halted (.init c)⟩
  obtain rfl := Host.Outcome.next.inj ((exec_init c hs).symm.trans ht)
  exact ⟨otf_zero c, exec_init c hs⟩

end Sys2Proof.Machine
end

section
/-! # DATAS and DATAP (43_conventions.md R81, R82)

The parallel byte step is the serial one (R64), so the two commands have one effect, `dataByte sbyte`. -/

namespace Sys2Proof.Machine

/-- The engines' byte steps, with the register first, are one function (R64). -/
theorem parallelByteStep_eq_sbyte : (fun r d => pstep d r) = sbyte :=
  funext fun r => funext fun d => pstep_eq_sbyte d r

/-- DATAP and DATAS have one effect. -/
@[simp] theorem effectOf_datap (din : Word) : effectOf (.datap din) = effectOf (.datas din) :=
  congrArg (fun byteStep => dataByte byteStep din) parallelByteStep_eq_sbyte

theorem exec_datap_eq_exec_datas (din : Word) (s : State) : exec (.datap din) s = exec (.datas din) s :=
  congrArg (fun byteStep => Host.Outcome.next (withOperand 8 din (dataByte byteStep din) s)) parallelByteStep_eq_sbyte

/-- Under Vanilla no byte is changed on its way in. -/
@[simp] theorem itf_vanilla (len : Nat) (d : Byte) : itf 0 len d = d := rfl

/-- Invert complements the first four bytes and no later one. -/
theorem itf_invert (len : Nat) (d : Byte) : itf 1 len d = if len < 4 then complement d else d := by
  simp [itf]

/-- Where the input transform keeps the byte, DATAS leaves the state of SBYTE, `LEN` apart. -/
theorem exec_sbyte_of_itf_eq {s : State} {din : Word} (hs : s.Running) (hw : OperandFits 8 din)
    (hitf : itf s.conv s.len.val (byteOperand din) = byteOperand din) :
    exec (.sbyte din) s = .next { effectOf (.datas din) s with len := s.len } := by
  rw [exec_of_wellFormed (i := .sbyte din) hs (decide_eq_true hw), effectOf, effectOf, dataByte, hitf]
  rfl

theorem itf_eq_self {s : State} (d : Byte) (h : s.conv = 0 ∨ s.conv = 1 ∧ s.len.val = 4) :
    itf s.conv s.len.val d = d := by
  obtain hc | ⟨hc, hlen⟩ := h
  · rw [hc, itf_vanilla]
  · rw [hc, itf_invert, if_neg (by omega)]

/-- Settles O23: DATAS is well-formed exactly below 256, and its effect is a byte step of the transformed byte and a
count. -/
theorem datasDividesMessageByte : Obligations.DatasDividesMessageByte := by
  refine ⟨fun din => decode_matchValue_add (op := 5) (sel := 0) rfl,
    fun cw hop => decode_isError_of_data (by simp [hop]),
    fun din s hs hw => ⟨countByte s.len, countByte_val s.len, exec_of_wellFormed hs (decide_eq_true hw)⟩,
    fun din s t hs hw hconv ht => ?_,
    fun din s hs hw => exec_of_illFormed hs (decide_eq_false hw.not_gt), fun din s => exec_of_halted (.datas din)⟩
  obtain rfl := Host.Outcome.next.inj ((exec_of_wellFormed (i := .datas din) hs (decide_eq_true hw)).symm.trans ht)
  exact exec_sbyte_of_itf_eq hs hw (itf_eq_self _ hconv)

/-- Settles O24: as DATAS, whose effect DATAP has by R64. -/
theorem datapDividesMessageByte : Obligations.DatapDividesMessageByte :=
  ⟨fun _ => decode_matchValue_add (op := 6) (sel := 0) rfl, fun _ hop => decode_isError_of_data (by simp [hop]),
    fun _ s hs hw => ⟨countByte s.len, countByte_val s.len, exec_of_wellFormed hs (decide_eq_true hw)⟩,
    exec_datap_eq_exec_datas,
    fun _ _ hs hw => exec_of_illFormed hs (decide_eq_false hw.not_gt), fun din _ => exec_of_halted (.datap din)⟩

end Sys2Proof.Machine
end

section
/-! # The per-byte pieces make up the conventions (43_conventions.md R70 to R77)

The value of a convention is its output transform of the Vanilla value of the message whose bytes have gone through its input
transform. -/

namespace Sys2Proof.Machine

/-- BitReverseInvert reverses the bits of a byte and then does what Invert does. -/
theorem itf_two (len : Nat) (d : Byte) : itf 2 len d = itf 1 len (reverseBits d) := by
  simp [itf]

/-- The last two conventions take their bytes alike. -/
theorem itf_three : itf 3 = itf 2 := by
  funext len d
  simp [itf]

theorem otf_three (r : Word) : otf 3 r = reverseByteOrder (otf 2 r) := rfl

/-- The saturated count tells a position's transform as well as the position does. -/
@[simp] theorem itf_min (c : Convention) (len : Nat) (d : Byte) : itf c (min len 4) d = itf c len d := by
  simp [itf]

/-- So it tells the pad. -/
@[simp] theorem padByte_min (len k : Nat) : padByte (min len 4) k = padByte len k := if_congr (by omega) rfl rfl

@[simp] theorem padBytes_min (len : Nat) : padBytes (min len 4) = padBytes len := by
  simp only [padBytes, padByte_min]

theorem mapIdx_itf_vanilla (m : List Byte) : m.mapIdx (itf 0) = m :=
  List.ext_getElem List.length_mapIdx fun i _ _ => by rw [List.getElem_mapIdx, itf_vanilla]

theorem mapIdx_itf_invert (m : List Byte) : m.mapIdx (itf 1) = complementFirst4 m :=
  congrArg m.mapIdx (funext fun i => funext fun d => itf_invert i d)

theorem mapIdx_itf_two (m : List Byte) : m.mapIdx (itf 2) = (m.map reverseBits).mapIdx (itf 1) :=
  List.ext_getElem (by simp) fun i _ _ => by rw [List.getElem_mapIdx, List.getElem_mapIdx, List.getElem_map, itf_two]

theorem convention_cases (c : Convention) : c = 0 ∨ c = 1 ∨ c = 2 ∨ c = 3 := by
  revert c
  decide

theorem bitReverseInvert_eq_otf_vanilla (m : List Byte) :
    bitReverseInvert m = otf 2 (vanilla (m.mapIdx (itf 2))) := by
  rw [mapIdx_itf_two, mapIdx_itf_invert]
  rfl

/-- The conventions through their per-byte pieces, for every message. -/
theorem convValue_eq_otf_vanilla (c : Convention) (m : List Byte) :
    convValue c m = otf c (vanilla (m.mapIdx (itf c))) := by
  obtain rfl | rfl | rfl | rfl := convention_cases c
  · rw [mapIdx_itf_vanilla]
    rfl
  · rw [mapIdx_itf_invert]
    rfl
  · exact bitReverseInvert_eq_otf_vanilla m
  · rw [itf_three, otf_three, ← bitReverseInvert_eq_otf_vanilla]
    rfl

/-- The Vanilla value of transformed bytes: their number selects the pad. -/
theorem vanilla_mapIdx (f : Nat → Byte → Byte) (m : List Byte) :
    vanilla (m.mapIdx f) = (m.mapIdx f ++ padBytes m.length).foldl sbyte 0 := by
  rw [vanilla, serialCompute, pad, List.length_mapIdx]
  rfl

end Sys2Proof.Machine
end

section
/-! # The message in progress (43_conventions.md R78)

INIT opens the empty message, DATAS adds its byte, a command that writes no register keeps the message, and the pad turns an
open message's registers into the convention's value. -/

namespace Sys2Proof.Machine

/-- A command that writes no register drives `XOUT` and does nothing else (20_memory.md R26). -/
theorem effectOf_of_writesNoRegister {i : Instr} (h : writesNoRegister i = true) (s : State) :
    effectOf i s = driveXout (effectOf i s).xout s := by
  cases i
  case init | sbit | sbyte | pbyte | datas | datap | fins | finp => cases h
  all_goals rfl

theorem messageOpen_init {s : State} (c : Convention) (hs : s.Running) : MessageOpen (effectOf (.init c) s) [] :=
  ⟨hs, rfl, rfl⟩

theorem messageOpen_driveXout {s : State} {m : List Byte} (v : Word) (h : MessageOpen s m) :
    MessageOpen (driveXout v s) m := ⟨h.running, h.len, h.crc⟩

theorem messageOpen_datas {s : State} {m : List Byte} (din : Word) (h : MessageOpen s m) :
    MessageOpen (effectOf (.datas din) s) (m ++ [byteOperand din]) where
  running := h.running
  len := by
    rw [List.length_append]
    exact countByte_of_saturated h.len
  crc := by
    have hbyte : (effectOf (.datas din) s).crc = sbyte s.crc (itf s.conv s.len.val (byteOperand din)) := rfl
    have hconv : (effectOf (.datas din) s).conv = s.conv := rfl
    rw [hbyte, hconv, h.len, itf_min, h.crc, List.mapIdx_concat, List.foldl_append]
    rfl

/-- The pad after an open message leaves the convention's value on `RESULT`. -/
theorem MessageOpen.result_padAndFinish {s : State} {m : List Byte} (h : MessageOpen s m) :
    (padAndFinish sbyte s).result = convValue s.conv m := by
  calc (padAndFinish sbyte s).result
      = otf s.conv ((padBytes s.len.val).foldl sbyte s.crc) := rfl
    _ = otf s.conv ((m.mapIdx (itf s.conv) ++ padBytes m.length).foldl sbyte 0) := by
        rw [h.len, padBytes_min, h.crc, List.foldl_append]
    _ = convValue s.conv m := by rw [convValue_eq_otf_vanilla, vanilla_mapIdx]

end Sys2Proof.Machine
end

section
/-! # FINS and FINP (43_conventions.md R83, R84) -/

namespace Sys2Proof.Machine

/-- FINP and FINS have one effect (R64). -/
@[simp] theorem effectOf_finp : effectOf .finp = effectOf .fins := congrArg padAndFinish parallelByteStep_eq_sbyte

theorem exec_finp_eq_exec_fins (s : State) : exec .finp s = exec .fins s :=
  congrArg (fun byteStep => Host.Outcome.next (whenRunning (padAndFinish byteStep) s)) parallelByteStep_eq_sbyte

theorem padByte_eq_ite (len : Nat) {k : Nat} (hk : k < 4) : padByte len k = if len < 4 - k then 0xFF else 0 :=
  if_congr (by omega) rfl rfl

/-- The pad bytes by the length that is short of them (R77). -/
theorem padBytes_eq_ite (len : Nat) :
    padBytes len = [if len < 4 then 0xFF else 0, if len < 3 then 0xFF else 0, if len < 2 then 0xFF else 0,
      if len < 1 then 0xFF else 0] := by
  simp only [padBytes, padByte_eq_ite, Nat.reduceLT, Nat.reduceSub]

/-- FINS and FINP in a running state, through the byte step of either engine. -/
theorem padAndFinish_eq (byteStep : Word → Byte → Word) (s : State) :
    padAndFinish byteStep s = { s with
      crc := byteStep (byteStep (byteStep (byteStep s.crc (if s.len.val < 4 then 0xFF else 0))
        (if s.len.val < 3 then 0xFF else 0)) (if s.len.val < 2 then 0xFF else 0)) (if s.len.val < 1 then 0xFF else 0),
      xout := 0 } := by
  rw [padAndFinish, padBytes_eq_ite]
  rfl

/-- R83's corner case: the empty message is padded with four bytes `0xFF`, which a zero register takes unchanged. -/
theorem padAndFinish_of_zero {s : State} (hcrc : s.crc = 0) (hlen : s.len = 0) :
    padAndFinish sbyte s = writeCrc 0xFFFFFFFF s := by
  have hpad : (padBytes 0).foldl sbyte 0 = 0xFFFFFFFF := by decide +kernel
  rw [padAndFinish, hcrc, hlen, Fin.val_zero, hpad]

/-- FINS from an open message, with `FAULT` still 0. -/
theorem MessageOpen.exec_fins {s : State} {m : List Byte} (h : MessageOpen s m) :
    ∃ t, exec .fins s = .next t ∧ t.result = convValue s.conv m ∧ t.fault = .noFault :=
  ⟨_, exec_of_wellFormed h.running rfl, h.result_padAndFinish, h.running⟩

/-- Settles O25: FINS feeds the pad to the serial engine, which from an open message makes the convention's value. -/
theorem finsFeedsSerialPad : Obligations.FinsFeedsSerialPad := by
  refine ⟨⟨decode_eq_ok_iff.2 rfl, fun cw hop => decode_isError_of_bare (by simp [hop])⟩, fun s hs => ?_,
    fun s m h => h.exec_fins, fun s hs hcrc hlen => ?_, fun s => exec_of_halted .fins⟩
  · rw [exec_of_wellFormed hs rfl, effectOf, padAndFinish_eq]
  · rw [exec_of_wellFormed hs rfl, effectOf, padAndFinish_of_zero hcrc hlen]
    rfl

/-- Settles O26: FINP feeds the pad to the parallel engine, and so has the effect of FINS. -/
theorem finpFeedsParallelPad : Obligations.FinpFeedsParallelPad := by
  refine ⟨⟨decode_eq_ok_iff.2 rfl, fun cw hop => decode_isError_of_bare (by simp [hop])⟩, fun s hs => ?_,
    exec_finp_eq_exec_fins, fun s m h => ?_, fun s => exec_of_halted .finp⟩
  · rw [exec_of_wellFormed hs rfl, effectOf, padAndFinish_eq]
  · rw [exec_finp_eq_exec_fins]
    exact h.exec_fins

end Sys2Proof.Machine
end

section
/-! # The message bracket (43_conventions.md R78)

Each item of a bracket keeps the message open and adds the byte it carries; the induction over the items gives the state
before FIN, and the pad gives the value. -/

namespace Sys2Proof.Machine

theorem messageOf_cons (item : BracketItem) (items : List BracketItem) :
    messageOf (item :: items) = item.byte?.toList ++ messageOf items := by
  cases item <;> rfl

theorem wellFormed_item {item : BracketItem} (h : item.legal = true) : item.instr.wellFormed = true := by
  cases item with
  | serialByte d => exact decide_eq_true (zext_byte_lt d)
  | parallelByte d => exact decide_eq_true (zext_byte_lt d)
  | between i => exact (Bool.and_eq_true_iff.1 h).2

/-- The state is that of a bracket opened under `c` whose items so far carried `m`. -/
structure BracketOpen (c : Convention) (m : List Byte) (s : State) : Prop where
  message : MessageOpen s m
  conv : s.conv = c

theorem bracketOpen_init {s : State} (c : Convention) (hs : s.Running) : BracketOpen c [] (effectOf (.init c) s) :=
  ⟨messageOpen_init c hs, rfl⟩

theorem bracketOpen_datas {c : Convention} {m : List Byte} {s : State} (d : Byte) (h : BracketOpen c m s) :
    BracketOpen c (m ++ [d]) (effectOf (.datas (d.setWidth 32)) s) := by
  have hopen := messageOpen_datas (d.setWidth 32) h.message
  rw [byteOperand_setWidth] at hopen
  exact ⟨hopen, h.conv⟩

theorem bracketOpen_item {c : Convention} {m : List Byte} {s : State} {item : BracketItem} (h : BracketOpen c m s)
    (hl : item.legal = true) : BracketOpen c (m ++ item.byte?.toList) (effectOf item.instr s) := by
  cases item with
  | serialByte d => exact bracketOpen_datas d h
  | parallelByte d =>
    rw [BracketItem.instr, effectOf_datap]
    exact bracketOpen_datas d h
  | between i =>
    rw [BracketItem.instr, effectOf_of_writesNoRegister (Bool.and_eq_true_iff.1 hl).1]
    exact ⟨(List.append_nil m).symm ▸ messageOpen_driveXout _ h.message, h.conv⟩

theorem bracketOpen_items {c : Convention} {items : List BracketItem} {m : List Byte} {s : State} (h : BracketOpen c m s)
    (hl : ∀ item ∈ items, item.legal = true) :
    BracketOpen c (m ++ messageOf items) ((items.map BracketItem.instr).foldl (fun s i => effectOf i s) s) := by
  induction items generalizing m s with
  | nil => exact (List.append_nil m).symm ▸ h
  | cons item items ih =>
    obtain ⟨hitem, hitems⟩ := List.forall_mem_cons.1 hl
    rw [messageOf_cons, ← List.append_assoc]
    exact ih (bracketOpen_item h hitem) hitems

theorem effectOf_finish (parallelFin : Bool) (s : State) : effectOf (finish parallelFin) s = padAndFinish sbyte s := by
  cases parallelFin with
  | false => rfl
  | true => exact congrFun effectOf_finp s

theorem wellFormed_bracket {c : Convention} {items : List BracketItem} (parallelFin : Bool)
    (hl : ∀ item ∈ items, item.legal = true) : ∀ i ∈ bracket c items parallelFin, i.wellFormed = true := by
  have hitems : ∀ i ∈ items.map BracketItem.instr, i.wellFormed = true :=
    List.forall_mem_map.2 fun item hi => wellFormed_item (hl item hi)
  have hfin : (finish parallelFin).wellFormed = true := by cases parallelFin <;> rfl
  simp only [bracket, List.forall_mem_cons, List.forall_mem_append]
  exact ⟨rfl, hitems, hfin, List.forall_mem_nil _⟩

/-- R78: the run of a bracket ends with the convention's value on `RESULT`. -/
theorem runInstrs_bracket (c : Convention) (items : List BracketItem) (parallelFin : Bool) (s : State) (hs : s.Running)
    (hl : ∀ item ∈ items, item.legal = true) :
    ∃ t, runInstrs (bracket c items parallelFin) s = .next t ∧ t.result = convValue c (messageOf items) ∧
      t.len.val = min (messageOf items).length 4 ∧ t.conv = c ∧ t.fault = .noFault := by
  obtain ⟨hopen, hconv⟩ := bracketOpen_items (bracketOpen_init c hs) hl
  have hresult := hopen.result_padAndFinish
  rw [hconv] at hresult
  refine ⟨_, runInstrs_of_wellFormed hs (wellFormed_bracket parallelFin hl), ?_⟩
  rw [bracket, List.foldl_cons, List.foldl_append, List.foldl_cons, List.foldl_nil, effectOf_finish]
  exact ⟨hresult, hopen.len, hconv, hopen.running⟩

/-- A run that begins with INIT does not depend on the running state it begins in. -/
theorem runInstrs_init_cons {s : State} (c : Convention) (is : List Instr) (hs : s.Running) :
    runInstrs (.init c :: is) s = runInstrs (.init c :: is) State.reset := by
  have hinit : effectOf (.init c) s = { effectOf (.init c) State.reset with pending := s.pending } := by
    simp only [effectOf, hs, State.reset_fault]
  rw [runInstrs_cons is hs rfl, runInstrs_cons is State.reset_fault rfl, hinit]
  exact runInputs_pending _ _ _

/-- Each raw command, and a second INIT, changes the value of the Vanilla bracket of the message `[1]`. -/
theorem result_of_disturbed_bracket :
    ∀ raw ∈ [Instr.sbit 1, .sbyte 1, .pbyte 1, .init 1],
      resultAfter (runInstrs [.init 0, .datas 1, raw, .fins] State.reset) ≠ some (convValue 0 [1]) := by
  decide +kernel

/-- Settles O50: the bracket by induction over its items; the four disturbed brackets by running them. -/
theorem messageBracketComputesConvention : Obligations.MessageBracketComputesConvention := by
  refine ⟨runInstrs_bracket, fun s hs raw hraw => ?_⟩
  have hw : ∀ i ∈ [Instr.init 0, .datas 1, raw, .fins], i.wellFormed = true := by
    revert raw
    decide
  have hrun := runInstrs_of_wellFormed hs hw
  refine ⟨_, hrun, fun hresult => result_of_disturbed_bracket raw hraw ?_⟩
  rw [← runInstrs_init_cons 0 _ hs, hrun]
  exact congrArg some hresult

end Sys2Proof.Machine
end

section
/-! # The composition laws (43_conventions.md R85) -/

namespace Sys2Proof.Machine

/-- A message byte through one of the engines. -/
def messageItem (parallel : Bool) (d : Byte) : BracketItem := if parallel then .parallelByte d else .serialByte d

@[simp] theorem legal_messageItem (parallel : Bool) (d : Byte) : (messageItem parallel d).legal = true := by
  cases parallel <;> rfl

@[simp] theorem byte_messageItem (parallel : Bool) (d : Byte) : (messageItem parallel d).byte? = some d := by
  cases parallel <;> rfl

theorem messageOf_map_messageItem (parallel : Bool) (m : List Byte) : messageOf (m.map (messageItem parallel)) = m := by
  simp [messageOf, List.filterMap_map]

/-- The bracket of a message through one engine. -/
theorem runInstrs_engineBracket (c : Convention) (m : List Byte) (parallel : Bool) {s : State} (hs : s.Running) :
    ∃ t, runInstrs (bracket c (m.map (messageItem parallel)) parallel) s = .next t ∧ t.result = convValue c m ∧
      t.fault = .noFault := by
  obtain ⟨t, hrun, hresult, -, -, hfault⟩ := runInstrs_bracket c (m.map (messageItem parallel)) parallel s hs (by simp)
  rw [messageOf_map_messageItem] at hresult
  exact ⟨t, hrun, hresult, hfault⟩

/-- Settles O51: a bracket answers the value of its function, and the functions obey the laws by their definitions. -/
theorem compositionLawsOfTheBlock : Obligations.CompositionLawsOfTheBlock := by
  intro m parallel s hs item run res
  have hres (c : Convention) (m : List Byte) : res c m = some (convValue c m) := by
    obtain ⟨t, hrun, hresult, -⟩ := runInstrs_engineBracket c m parallel hs
    exact (congrArg resultAfter hrun).trans (congrArg some hresult)
  refine ⟨⟨rfl, rfl, rfl⟩, fun c m => ?_, ?_, ?_, ?_⟩
  · obtain ⟨t, hrun, -, hfault⟩ := runInstrs_engineBracket c m parallel hs
    exact ⟨t, hrun, hfault⟩
  all_goals
    rw [hres, hres]
    rfl

end Sys2Proof.Machine
end

section
/-! # Faults and the halted state (60_exceptions.md R90 to R94)

Which fault a running block raises is a function of the input alone (`causeOf`). What it answers is told once
(`answer_of_running`): `FAULT` becomes that cause, and if the block halts then taking that fault is all it did. -/

namespace Sys2Proof.Machine

/-- The fault an input raises in a running block (R90), `noFault` where it raises none. -/
def causeOf : HostInput → FaultCause
  | .reset => .noFault
  | .command cw =>
    match decode cw with
    | .error _ => .illegalCommand
    | .ok i => if i.wellFormed then .noFault else .widthViolation

@[simp] theorem causeOf_reset : causeOf .reset = .noFault := rfl

theorem causeOf_of_error {cw : CommandWord} {e : Illegal} (hd : decode cw = .error e) :
    causeOf (.command cw) = .illegalCommand := by
  rw [causeOf, hd]

theorem causeOf_of_ok {cw : CommandWord} {i : Instr} (hd : decode cw = .ok i) :
    causeOf (.command cw) = if i.wellFormed then .noFault else .widthViolation := by
  rw [causeOf, hd]

theorem causeOf_eq_illegalCommand_iff {input : HostInput} :
    causeOf input = .illegalCommand ↔ ∃ cw e, input = .command cw ∧ decode cw = .error e := by
  match input with
  | .reset => simp
  | .command cw =>
    match hd : decode cw with
    | .error e => simp [causeOf_of_error hd, hd]
    | .ok i => cases hw : i.wellFormed <;> simp [causeOf_of_ok hd, hd, hw]

/-- The input is a command whose operand exceeds its width, for that is when a command is ill-formed. -/
theorem causeOf_eq_widthViolation_iff {input : HostInput} :
    causeOf input = .widthViolation ↔
      ∃ cw i din, input = .command cw ∧ decode cw = .ok i ∧ i.operand? = some din ∧ 2 ^ i.operandWidth ≤ din.toNat := by
  match input with
  | .reset => simp
  | .command cw =>
    match hd : decode cw with
    | .error e => simp [causeOf_of_error hd, hd]
    | .ok i =>
      have hiff : causeOf (.command cw) = .widthViolation ↔ i.wellFormed = false := by
        cases hw : i.wellFormed <;> simp [causeOf_of_ok hd, hw]
      rw [hiff, wellFormed_eq_false_iff]
      simp [hd]

/-- Everything a running block's answer says about faults: `FAULT` is the input's cause, and a faulting input does nothing
but take that fault. -/
theorem answer_of_running {input : HostInput} {s t : State} (hs : s.Running) (ht : presentInput input s = .next t) :
    t.fault = causeOf input ∧ (t.Halted → t = takeFault t.fault s) := by
  obtain ⟨rfl, e⟩ | ⟨cw, rfl, ⟨hh, -⟩ | ⟨-, x, hd, e⟩ | ⟨-, i, hd, e⟩⟩ := presentInput_cases input s
  · obtain rfl := Host.Outcome.next.inj (e.symm.trans ht)
    exact ⟨rfl, fun hh => absurd rfl hh⟩
  · exact absurd hs hh
  · obtain rfl := Host.Outcome.next.inj (e.symm.trans ht)
    exact ⟨(causeOf_of_error hd).symm, fun _ => rfl⟩
  · rw [causeOf_of_ok hd]
    cases hw : i.wellFormed
    · obtain rfl := Host.Outcome.next.inj ((exec_of_illFormed hs hw).symm.trans (e.symm.trans ht))
      exact ⟨rfl, fun _ => rfl⟩
    · obtain rfl := Host.Outcome.next.inj ((exec_of_wellFormed hs hw).symm.trans (e.symm.trans ht))
      have hrun : (effectOf i s).Running := (effectOf_fault i s).trans hs
      exact ⟨hrun, fun hh => absurd hrun hh⟩

theorem operand_eq_none_iff (i : Instr) :
    i.operand? = none ↔ i = .nop ∨ (∃ c, i = .init c) ∨ i = .fins ∨ i = .finp := by
  cases i <;> simp [Instr.operand?]

/-- Settles O7: one lemma for each outcome of the checks; the example word fails the decoder. -/
theorem checksInOrder : Obligations.ChecksInOrder := by
  refine fun s cw => ⟨presentCommand_of_halted cw, fun e hs hd => presentCommand_of_error hs hd,
    fun i hs hd hw => ?_, fun i hs hd hw => ⟨presentCommand_of_ok hd, exec_of_wellFormed_noFault hs hw⟩, ?_⟩
  · rw [presentCommand_of_ok hd]
    exact exec_of_illFormed hs hw
  · rintro rfl hs
    have hd : decode 0x2400000005#40 = .error .selNotZero := by decide
    exact presentCommand_of_error hs hd

/-- Settles O8: `FAULT` is the cause that the input alone determines. -/
theorem faultCausesExhaustive : Obligations.FaultCausesExhaustive := by
  refine ⟨⟨rfl, rfl, rfl⟩, fun input s t hs ht => ?_, operand_eq_none_iff⟩
  rw [(answer_of_running hs ht).1]
  exact ⟨causeOf_eq_illegalCommand_iff, causeOf_eq_widthViolation_iff⟩

@[simp] theorem takeFault_result (c : FaultCause) (s : State) : (takeFault c s).result = s.result := rfl

/-- A halted block shows the code of one of the two causes. -/
theorem faultOut_of_halted {t : State} (h : t.Halted) :
    t.fault = .illegalCommand ∧ t.faultOut = 1 ∨ t.fault = .widthViolation ∧ t.faultOut = 2 := by
  rw [State.faultOut]
  match hf : t.fault with
  | .noFault => exact absurd hf h
  | .illegalCommand => exact .inl ⟨rfl, rfl⟩
  | .widthViolation => exact .inr ⟨rfl, rfl⟩

/-- Settles O10: a running block that halts has taken a fault and done nothing else, and `RESULT` does not read what
taking a fault writes. -/
theorem faultsArePrecise : Obligations.FaultsArePrecise := by
  intro input s t hs ht hh
  have heq : t = takeFault t.fault s := (answer_of_running hs ht).2 hh
  exact ⟨heq, (congrArg State.result heq).trans (takeFault_result _ s), rfl, faultOut_of_halted hh⟩

/-- Settles O12: a halted block resets or ignores its input. -/
theorem onlyResetLeavesHalt : Obligations.OnlyResetLeavesHalt := by
  intro input s t hh ht
  obtain ⟨rfl, e⟩ | ⟨cw, rfl, ⟨-, e⟩ | ⟨hs, -⟩ | ⟨hs, -⟩⟩ := presentInput_cases input s
  · exact .inl ⟨rfl, Host.Outcome.next.inj (ht.symm.trans e)⟩
  · obtain rfl := Host.Outcome.next.inj (e.symm.trans ht)
    exact .inr ⟨nofun, rfl, hh, rfl⟩
  · exact absurd hs hh
  · exact absurd hs hh

/-- Settles O11: an ignored command writes no register and no output but `XOUT`. -/
theorem haltedIgnoresEveryWord : Obligations.HaltedIgnoresEveryWord := fun s cw hh =>
  ⟨ignoreCommand s, presentCommand_of_halted cw hh, rfl, rfl, rfl, rfl, rfl, rfl, rfl, rfl, hh⟩

end Sys2Proof.Machine
end

section
/-! # Reset (70_reset_and_hazards.md R100)

Reset and `INIT 0` write the same values; they differ in `FAULT` alone, which reset clears and `INIT` leaves as it is, and
which a running block holds at 0 already. -/

namespace Sys2Proof.Machine

/-- The effect of `INIT 0` is reset's, but for the fault: both keep the host's stream. -/
theorem effectOf_init_zero (s : State) : effectOf (.init 0) s = { applyReset s with fault := s.fault } := rfl

/-- A running block has no fault to clear, so reset does no more than `INIT 0`. -/
theorem applyReset_eq_effectOf_init {s : State} (hs : s.Running) : applyReset s = effectOf (.init 0) s := by
  rw [effectOf_init_zero, hs]
  rfl

/-- Settles O1: reset is `INIT 0` with the fault cleared, and a halted block answers every other input halted (O12). -/
theorem resetClearsEverything : Obligations.ResetClearsEverything := by
  refine ⟨fun _ => rfl, ⟨rfl, rfl, rfl, rfl, by decide, rfl, rfl⟩, fun s hs => ?_,
    fun input s t hh ht hrun => ?_⟩
  · calc presentInput .reset s = .next (applyReset s) := rfl
      _ = .next (effectOf (.init 0) s) := congrArg Host.Outcome.next (applyReset_eq_effectOf_init hs)
      _ = exec (.init 0) s := (exec_init 0 hs).symm
  · obtain ⟨hreset, -⟩ | ⟨-, -, hhalted, -⟩ := onlyResetLeavesHalt input s t hh ht
    · exact hreset
    · exact absurd hrun hhalted

end Sys2Proof.Machine
end

section
/-! # The command words of the opcode table, and their round trip (30_encoding.md sections 3 to 5)

The decoder and the encoder have been inverted (`decode_eq_ok_iff`); what is left is that a word's own number, read as the
opcode table numbers its bits, is the word. -/

namespace Sys2Proof

@[simp] theorem commandWordOfTable_toNat (cw : CommandWord) : commandWordOfTable 40 cw.toNat = cw := by
  rw [commandWordOfTable, Nat.mod_eq_of_lt cw.isLt, BitVec.ofNat_toNat, BitVec.setWidth_eq]

/-- The opcode table's reading of a 40-bit word is the decoder's. -/
theorem decodeTableWord_toNat (cw : CommandWord) : decodeTableWord 40 cw.toNat = (decode cw).toOption := by
  rw [decodeTableWord, if_pos (Nat.mod_lt _ (Nat.two_pow_pos 40)), commandWordOfTable_toNat]

/-- Settles O13: the decoder inverts the encoder, and the opcode table reads the same word. -/
theorem decodeEncodeRoundTrip : Obligations.DecodeEncodeRoundTrip := by
  refine fun i => ⟨decode_encode i, ?_⟩
  rw [decodeTableWord_toNat, decode_encode]
  rfl

/-- Settles O14: it is `decode_eq_ok_iff` from left to right. -/
theorem encodeInvertsDecode : Obligations.EncodeInvertsDecode := fun _ _ => decode_eq_ok_iff.1

/-- Settles O17: each word is the encoding of its command, by evaluation of the encoder. -/
theorem workedExampleWordsDecode : Obligations.WorkedExampleWordsDecode := by
  simp only [Obligations.WorkedExampleWordsDecode, decode_eq_ok_iff]
  decide

end Sys2Proof
end

section
/-! # The step takes the oldest input (20_memory.md section 6, 60_exceptions.md section 7, 10_state.md section 6) -/

namespace Sys2Proof.Machine

/-- Settles O2: with nothing pending a step is `idle`. -/
theorem idleHoldsTheState : Obligations.IdleHoldsTheState := fun _ => step_of_nil

theorem step_of_decode_eq_ok {s : State} {cw : CommandWord} {rest : List HostInput} {i : Instr}
    (hp : s.pending = .command cw :: rest) (hd : decode cw = .ok i) : step s = exec i { s with pending := rest } := by
  rw [step_of_cons hp, presentInput, presentCommand_of_ok hd]

/-- Settles O3: the oldest input is presented, and a word that decodes runs its command. -/
theorem stepRunsDecodedCommand : Obligations.StepRunsDecodedCommand :=
  ⟨fun _ _ _ => step_of_cons, fun _ _ _ _ => step_of_decode_eq_ok⟩

/-- Settles O4: the placed word is the command's encoding, which decodes to the command. -/
theorem placedWordRunsNext : Obligations.PlacedWordRunsNext := by
  intro s i
  rw [State.withFetchWord, commandWordOfTable_toNat]
  exact step_of_decode_eq_ok rfl (decode_encode i)

theorem exec_answers_next (i : Instr) (s : State) : ∃ t, exec i s = .next t := by
  obtain ⟨-, e⟩ | ⟨-, -, e⟩ | ⟨-, -, e⟩ := exec_cases i s <;> exact ⟨_, e⟩

theorem presentInput_answers_next (input : HostInput) (s : State) : ∃ t, presentInput input s = .next t := by
  obtain ⟨-, e⟩ | ⟨cw, -, ⟨-, e⟩ | ⟨-, x, -, e⟩ | ⟨-, i, -, e⟩⟩ := presentInput_cases input s
  · exact ⟨_, e⟩
  · exact ⟨_, e⟩
  · exact ⟨_, e⟩
  · exact e ▸ exec_answers_next i s

/-- Settles O5: an idle step, and every answer to an input, is a next state. -/
theorem everyStepAnswersNext : Obligations.EveryStepAnswersNext := by
  intro s
  match hp : s.pending with
  | [] => exact ⟨_, step_of_nil hp⟩
  | input :: rest => exact step_of_cons hp ▸ presentInput_answers_next input _

/-- No command reads what `XOUT` showed: its answer is that of the state with any other value there. -/
theorem exec_xout (i : Instr) (s : State) (x : Word) : exec i { s with xout := x } = exec i s := by
  have heffect : effectOf i { s with xout := x } = effectOf i s := by cases i <;> rfl
  obtain ⟨hs, e⟩ | ⟨hs, hw, e⟩ | ⟨hs, hw, e⟩ := exec_cases i s
  · exact (exec_of_halted i hs).trans e.symm
  · exact (exec_of_illFormed hs hw).trans e.symm
  · rw [e, ← heffect]
    exact exec_of_wellFormed (s := { s with xout := x }) hs hw

theorem presentInput_xout (input : HostInput) (s : State) (x : Word) :
    presentInput input { s with xout := x } = presentInput input s := by
  obtain ⟨rfl, e⟩ | ⟨cw, rfl, ⟨hs, e⟩ | ⟨hs, _, hd, e⟩ | ⟨-, i, hd, e⟩⟩ := presentInput_cases input s
  · rfl
  · exact (presentCommand_of_halted (s := { s with xout := x }) cw hs).trans e.symm
  · exact (presentCommand_of_error (s := { s with xout := x }) hs hd).trans e.symm
  · rw [e, presentInput, presentCommand_of_ok hd, exec_xout]

/-- Settles O32: neither an idle step nor the answer to an input reads the recorded value. -/
theorem xoutIsNotState : Obligations.XoutIsNotState := by
  intro s x
  by_cases hp : s.pending = []
  · exact (step_of_nil (s := { s with xout := x }) hp).trans (step_of_nil hp).symm
  · obtain ⟨input, rest, hp⟩ := List.exists_cons_of_ne_nil hp
    calc step { s with xout := x }
        = presentInput input { s with pending := rest, xout := x } := step_of_cons hp
      _ = presentInput input { s with pending := rest } := presentInput_xout input { s with pending := rest } x
      _ = step s := (step_of_cons hp).symm

end Sys2Proof.Machine
end

section
/-! # An open message's registers (43_conventions.md section 2, 70_reset_and_hazards.md section 3)

The ghost message moves with the step, case by case as the step's inversion lemma has them. -/

namespace Sys2Proof.Machine

theorem tracks_none (s : State) : Tracks s none := nofun

theorem tracks_some {s : State} {m : List Byte} (h : MessageOpen s m) : Tracks s (some m) := by
  rintro _ ⟨⟩
  exact h

theorem tracks_driveXout {s : State} {m : Option (List Byte)} (v : Word) (h : Tracks s m) : Tracks (driveXout v s) m :=
  fun msg hm => messageOpen_driveXout v (h msg hm)

/-- What the host has still to present is no part of an open message. -/
theorem tracks_pending {s : State} {m : Option (List Byte)} (p : List HostInput) (h : Tracks s m) :
    Tracks { s with pending := p } m := fun msg hm => ⟨(h msg hm).running, (h msg hm).len, (h msg hm).crc⟩

theorem messageOpen_applyReset (s : State) : MessageOpen (applyReset s) [] := ⟨rfl, rfl, rfl⟩

/-! ### What a command makes of the ghost message -/

theorem messageAfterCommand_of_illFormed {i : Instr} (m : Option (List Byte)) (hw : i.wellFormed = false) :
    messageAfterCommand i m = none := if_neg (by simp [hw])

theorem messageAfterCommand_of_writesNoRegister {i : Instr} (m : Option (List Byte)) (hw : i.wellFormed = true)
    (hreg : writesNoRegister i = true) : messageAfterCommand i m = m := by
  cases i
  case init | sbit | sbyte | pbyte | datas | datap | fins | finp => cases hreg
  all_goals exact if_pos hw

theorem messageAfterCommand_datas {din : Word} (m : Option (List Byte)) (hw : (Instr.datas din).wellFormed = true) :
    messageAfterCommand (.datas din) m = m.map (· ++ [byteOperand din]) := if_pos hw

theorem messageAfterCommand_datap {din : Word} (m : Option (List Byte)) (hw : (Instr.datap din).wellFormed = true) :
    messageAfterCommand (.datap din) m = m.map (· ++ [byteOperand din]) := if_pos hw

theorem tracks_datas {s : State} {m : Option (List Byte)} (din : Word) (h : Tracks s m) :
    Tracks (effectOf (.datas din) s) (m.map (· ++ [byteOperand din])) := by
  match m with
  | none => exact tracks_none _
  | some msg => exact tracks_some (messageOpen_datas din (h msg rfl))

/-- The effect of a command keeps the ghost message true: INIT opens a message, a data command adds its byte, a command
that writes no register keeps it, and any other command leaves none to speak of. -/
theorem tracks_effectOf {s : State} {m : Option (List Byte)} {i : Instr} (hs : s.Running) (hw : i.wellFormed = true)
    (h : Tracks s m) : Tracks (effectOf i s) (messageAfterCommand i m) := by
  by_cases hreg : writesNoRegister i = true
  · rw [messageAfterCommand_of_writesNoRegister m hw hreg, effectOf_of_writesNoRegister hreg]
    exact tracks_driveXout _ h
  · cases i
    case init c => exact tracks_some (messageOpen_init c hs)
    case datas din => exact messageAfterCommand_datas m hw ▸ tracks_datas din h
    case datap din => exact messageAfterCommand_datap m hw ▸ effectOf_datap din ▸ tracks_datas din h
    case sbit | sbyte | pbyte | fins | finp => simp [messageAfterCommand, writesNoRegister, tracks_none]
    all_goals exact absurd rfl hreg

theorem tracks_exec {s t : State} {m : Option (List Byte)} {i : Instr} (hs : s.Running) (h : Tracks s m)
    (ht : exec i s = .next t) : Tracks t (messageAfterCommand i m) := by
  obtain ⟨hh, -⟩ | ⟨-, hw, -⟩ | ⟨-, hw, e⟩ := exec_cases i s
  · exact absurd hs hh
  · exact messageAfterCommand_of_illFormed m hw ▸ tracks_none t
  · obtain rfl := Host.Outcome.next.inj (e.symm.trans ht)
    exact tracks_effectOf hs hw h

/-! ### What a step makes of the ghost message -/

theorem messageAfterStep_of_nil {s : State} (m : Option (List Byte)) (hp : s.pending = []) :
    messageAfterStep s m = m := by
  rw [messageAfterStep, hp]

theorem messageAfterStep_of_reset {s : State} {rest : List HostInput} (m : Option (List Byte))
    (hp : s.pending = .reset :: rest) : messageAfterStep s m = some [] := by
  rw [messageAfterStep, hp]

theorem messageAfterStep_of_halted {s : State} {cw : CommandWord} {rest : List HostInput} (m : Option (List Byte))
    (hp : s.pending = .command cw :: rest) (hs : s.Halted) : messageAfterStep s m = none := by
  rw [messageAfterStep, hp]
  exact if_pos hs

theorem messageAfterStep_of_error {s : State} {cw : CommandWord} {rest : List HostInput} {e : Illegal}
    (m : Option (List Byte)) (hp : s.pending = .command cw :: rest) (hd : decode cw = .error e) :
    messageAfterStep s m = none := by
  simp [messageAfterStep, hp, hd]

theorem messageAfterStep_of_ok {s : State} {cw : CommandWord} {rest : List HostInput} {i : Instr}
    (m : Option (List Byte)) (hp : s.pending = .command cw :: rest) (hs : s.Running) (hd : decode cw = .ok i) :
    messageAfterStep s m = messageAfterCommand i m := by
  simp [messageAfterStep, hp, hs, hd]

/-- Settles O47, by the cases of what a step can have done. -/
theorem everyStepKeepsTheOpenMessage : Obligations.EveryStepKeepsTheOpenMessage := by
  intro s t m h ht
  obtain ⟨hp, rfl⟩ | ⟨rest, hp, rfl⟩ | ⟨cw, rest, hp, ⟨hs, -⟩ | ⟨-, e, hd, -⟩ | ⟨hs, i, hd, hexec⟩⟩ := step_inv ht
  · rw [messageAfterStep_of_nil m hp]
    exact tracks_driveXout 0 h
  · rw [messageAfterStep_of_reset m hp]
    exact tracks_some (messageOpen_applyReset _)
  · rw [messageAfterStep_of_halted m hp hs]
    exact tracks_none t
  · rw [messageAfterStep_of_error m hp hd]
    exact tracks_none t
  · rw [messageAfterStep_of_ok m hp hs hd]
    exact tracks_exec (s := { s with pending := rest }) hs (tracks_pending rest h) hexec

/-- Settles O48: reset opens the empty message, and resetting the reset state changes nothing. -/
theorem resetOpensTheEmptyMessage : Obligations.ResetOpensTheEmptyMessage :=
  tracks_some (messageOpen_applyReset State.reset)

end Sys2Proof.Machine
end

section
/-! # Which command writes which register (10_state.md section 1) -/

namespace Sys2Proof.Machine

/-- Only INIT writes `CONV`. -/
theorem effectOf_conv {i : Instr} (s : State) (h : ∀ c, i ≠ .init c) : (effectOf i s).conv = s.conv := by
  cases i
  case init c => exact absurd rfl (h c)
  all_goals rfl

/-- Only INIT, DATAS and DATAP write `LEN`. -/
theorem effectOf_len {i : Instr} (s : State) (hinit : ∀ c, i ≠ .init c) (hdatas : ∀ d, i ≠ .datas d)
    (hdatap : ∀ d, i ≠ .datap d) : (effectOf i s).len = s.len := by
  cases i
  case init c => exact absurd rfl (hinit c)
  case datas d => exact absurd rfl (hdatas d)
  case datap d => exact absurd rfl (hdatap d)
  all_goals rfl

theorem effectOf_crc {i : Instr} (s : State) (h : writesNoRegister i = true) : (effectOf i s).crc = s.crc := by
  rw [effectOf_of_writesNoRegister h, driveXout_crc]

/-- Only a transform drives `XOUT` to anything but 0. -/
theorem effectOf_xout {i : Instr} (s : State) (h : writesNoRegister i = false ∨ i = .nop) : (effectOf i s).xout = 0 := by
  obtain h | rfl := h
  · cases i
    case init | sbit | sbyte | pbyte | datas | datap | fins | finp => rfl
    all_goals cases h
  · rfl

theorem effectOf_keeps_pending (i : Instr) (s : State) : (effectOf i s).pending = s.pending := by
  cases i <;> rfl

/-- Settles O31: an ignored or faulting command writes no register but `FAULT`, and an effect writes what its own lemmas
say. -/
theorem frameOfEveryCommand : Obligations.FrameOfEveryCommand := by
  intro i s t ht
  obtain ⟨hs, e⟩ | ⟨hs, hw, e⟩ | ⟨hs, hw, e⟩ := exec_cases i s <;>
    obtain rfl := Host.Outcome.next.inj (e.symm.trans ht)
  · exact ⟨fun _ => rfl, fun _ _ _ => rfl, fun _ => rfl, .inl rfl, fun _ => rfl, fun hrun => absurd hrun hs, rfl⟩
  · exact ⟨fun _ => rfl, fun _ _ _ => rfl, fun _ => rfl, .inr ⟨hs, hw, rfl⟩, fun _ => rfl, fun _ _ => rfl, rfl⟩
  · have hrun : (effectOf i s).Running := (effectOf_fault i s).trans hs
    exact ⟨effectOf_conv s, effectOf_len s, effectOf_crc s, .inl (effectOf_fault i s),
      fun h => effectOf_xout s (h.imp_right fun h => h.resolve_right fun hh => hh hrun),
      fun _ hh => absurd hrun hh, effectOf_keeps_pending i s⟩

end Sys2Proof.Machine
end

section
/-! # Either engine will do (43_conventions.md section 4) -/

namespace Sys2Proof.Machine

/-- In every state, and on operands of every width, SBYTE and PBYTE answer alike (R64). -/
theorem exec_sbyte_eq_exec_pbyte (din : Word) (s : State) : exec (.sbyte din) s = exec (.pbyte din) s :=
  congrArg
    (fun byteStep : Word → Byte → Word =>
      Host.Outcome.next (withOperand 8 din (fun s => writeCrc (byteStep s.crc (byteOperand din)) s) s))
    parallelByteStep_eq_sbyte.symm

/-- Settles O33: the two commands of each pair differ in their byte step only, and the byte steps are one function. -/
theorem enginesInterchangeable : Obligations.EnginesInterchangeable := fun s =>
  ⟨(exec_finp_eq_exec_fins s).symm, fun din => ⟨(exec_datap_eq_exec_datas din s).symm, exec_sbyte_eq_exec_pbyte din s⟩⟩

end Sys2Proof.Machine
end

section
/-! # The transforms as permutations of bits (40_transforms.md section 3)

Each reversal reads bit `i` of its answer from a position of its operand, and differs from the others in that position
alone; so what they share is shown once, for `permuteBits`, and their laws are facts about positions. -/

namespace Sys2Proof.Machine

/-- The value whose bit `i` is bit `π i` of `x`. -/
def permuteBits {w : Nat} (π : Nat → Nat) (x : BitVec w) : BitVec w := ofBits (fun i => x.getLsbD (π i)) w

/-- Where R40 reads bit `i`. -/
def mirroredBit (w i : Nat) : Nat := w - 1 - i

/-- Where R41 reads bit `i`. -/
def mirroredInByte (i : Nat) : Nat := 8 * (i / 8) + (7 - i % 8)

/-- Where R42 reads bit `i`. -/
def mirroredByte (w i : Nat) : Nat := 8 * (w / 8 - 1 - i / 8) + i % 8

theorem reverseBits_eq_permuteBits (w : Nat) : reverseBits (w := w) = permuteBits (mirroredBit w) := rfl

theorem reverseBitsPerByte_eq_permuteBits (w : Nat) : reverseBitsPerByte (w := w) = permuteBits mirroredInByte := rfl

theorem reverseByteOrder_eq_permuteBits (w : Nat) : reverseByteOrder (w := w) = permuteBits (mirroredByte w) := rfl

theorem mirroredBit_lt {w i : Nat} (h : i < w) : mirroredBit w i < w := by
  rw [mirroredBit]
  omega

theorem mirroredInByte_lt {n i : Nat} (h : i < 8 * n) : mirroredInByte i < 8 * n := by
  rw [mirroredInByte]
  omega

theorem mirroredByte_lt {n i : Nat} (h : i < 8 * n) : mirroredByte (8 * n) i < 8 * n := by
  rw [mirroredByte]
  omega

/-! ### What every permutation of bits does -/

theorem getLsbD_permuteBits {w : Nat} (π : Nat → Nat) (x : BitVec w) {i : Nat} (hi : i < w) :
    (permuteBits π x).getLsbD i = x.getLsbD (π i) := by
  rw [permuteBits, getLsbD_ofBits, decide_eq_true hi, Bool.true_and]

theorem permuteBits_of_fixed {w : Nat} {π : Nat → Nat} (h : ∀ i < w, π i = i) (x : BitVec w) : permuteBits π x = x :=
  BitVec.eq_of_getLsbD_eq fun i hi => by rw [getLsbD_permuteBits π x hi, h i hi]

theorem permuteBits_congr {w : Nat} {π ρ : Nat → Nat} (h : ∀ i < w, π i = ρ i) (x : BitVec w) :
    permuteBits π x = permuteBits ρ x :=
  BitVec.eq_of_getLsbD_eq fun i hi => by rw [getLsbD_permuteBits π x hi, getLsbD_permuteBits ρ x hi, h i hi]

theorem permuteBits_permuteBits {w : Nat} {π : Nat → Nat} (ρ : Nat → Nat) (hπ : ∀ i < w, π i < w) (x : BitVec w) :
    permuteBits π (permuteBits ρ x) = permuteBits (ρ ∘ π) x :=
  BitVec.eq_of_getLsbD_eq fun i hi => by
    rw [getLsbD_permuteBits π _ hi, getLsbD_permuteBits ρ x (hπ i hi), getLsbD_permuteBits (ρ ∘ π) x hi,
      Function.comp_apply]

theorem permuteBits_involutive {w : Nat} {π : Nat → Nat} (hlt : ∀ i < w, π i < w) (h : ∀ i < w, π (π i) = i) :
    Function.Involutive (permuteBits (w := w) π) := fun x => by
  rw [permuteBits_permuteBits π hlt]
  exact permuteBits_of_fixed h x

theorem permuteBits_xor {w : Nat} (π : Nat → Nat) (x y : BitVec w) :
    permuteBits π (x ^^^ y) = permuteBits π x ^^^ permuteBits π y :=
  BitVec.eq_of_getLsbD_eq fun i hi => by simp only [BitVec.getLsbD_xor, getLsbD_permuteBits π _ hi]

theorem complement_permuteBits {w : Nat} {π : Nat → Nat} (hπ : ∀ i < w, π i < w) (x : BitVec w) :
    complement (permuteBits π x) = permuteBits π (complement x) :=
  BitVec.eq_of_getLsbD_eq fun i hi => by
    rw [getLsbD_complement, getLsbD_permuteBits π _ hi, getLsbD_permuteBits π _ hi, getLsbD_complement,
      decide_eq_true hi, decide_eq_true (hπ i hi)]

/-! ### The laws -/

theorem reverseBits_involutive (w : Nat) : Function.Involutive (reverseBits (w := w)) := by
  rw [reverseBits_eq_permuteBits]
  exact permuteBits_involutive (π := mirroredBit w) (fun _ => mirroredBit_lt) fun i hi => by
    rw [mirroredBit, mirroredBit]
    omega

theorem reverseBitsPerByte_involutive (n : Nat) : Function.Involutive (reverseBitsPerByte (w := 8 * n)) := by
  rw [reverseBitsPerByte_eq_permuteBits]
  exact permuteBits_involutive (π := mirroredInByte) (fun _ => mirroredInByte_lt) fun i hi => by
    rw [mirroredInByte, mirroredInByte]
    omega

theorem reverseByteOrder_involutive (n : Nat) : Function.Involutive (reverseByteOrder (w := 8 * n)) := by
  rw [reverseByteOrder_eq_permuteBits]
  exact permuteBits_involutive (π := mirroredByte (8 * n)) (fun _ => mirroredByte_lt) fun i hi => by
    rw [mirroredByte, mirroredByte]
    omega

theorem complement_involutive (w : Nat) : Function.Involutive (complement (w := w)) := fun x => by
  rw [complement_eq_not, complement_eq_not, BitVec.not_not]

/-- Settles O43: an involution is a bijection. -/
theorem transformsAreInvolutions : Obligations.TransformsAreInvolutions :=
  ⟨fun w x => ⟨reverseBits_involutive w x, complement_involutive w x⟩,
    fun n x => ⟨reverseBitsPerByte_involutive n x, reverseByteOrder_involutive n x⟩,
    fun w => ⟨(reverseBits_involutive w).bijective, (complement_involutive w).bijective⟩,
    fun n => ⟨(reverseBitsPerByte_involutive n).bijective, (reverseByteOrder_involutive n).bijective⟩⟩

/-- Reversing the bytes and reversing in each byte meet in the mirrored bit. -/
theorem mirroredInByte_mirroredByte {n i : Nat} (h : i < 8 * n) :
    mirroredInByte (mirroredByte (8 * n) i) = mirroredBit (8 * n) i := by
  simp only [mirroredInByte, mirroredByte, mirroredBit]
  omega

theorem mirroredByte_mirroredInByte {n i : Nat} (h : i < 8 * n) :
    mirroredByte (8 * n) (mirroredInByte i) = mirroredBit (8 * n) i := by
  simp only [mirroredInByte, mirroredByte, mirroredBit]
  omega

theorem reverseBits_eq_reverseByteOrder {n : Nat} (x : BitVec (8 * n)) :
    reverseBits x = reverseByteOrder (reverseBitsPerByte x) :=
  (permuteBits_congr (fun _ hi => (mirroredInByte_mirroredByte hi).symm) x).trans
    (permuteBits_permuteBits mirroredInByte (fun _ => mirroredByte_lt) x).symm

theorem reverseBits_eq_reverseBitsPerByte {n : Nat} (x : BitVec (8 * n)) :
    reverseBits x = reverseBitsPerByte (reverseByteOrder x) :=
  (permuteBits_congr (fun _ hi => (mirroredByte_mirroredInByte hi).symm) x).trans
    (permuteBits_permuteBits (mirroredByte (8 * n)) (fun _ => mirroredInByte_lt) x).symm

theorem reverseBits_xor {w : Nat} (x y : BitVec w) : reverseBits (x ^^^ y) = reverseBits x ^^^ reverseBits y :=
  permuteBits_xor (mirroredBit w) x y

theorem complement_reverseBits {w : Nat} (x : BitVec w) : complement (reverseBits x) = reverseBits (complement x) :=
  complement_permuteBits (fun _ => mirroredBit_lt) x

theorem complement_xor {w : Nat} (x y : BitVec w) : complement (x ^^^ y) = complement x ^^^ y := by
  rw [complement_eq_not, complement_eq_not, BitVec.not_xor_left]

/-- Settles O44: the reversals compose as their positions do, and what else they obey every permutation of bits does. -/
theorem transformsComposeAndCommute : Obligations.TransformsComposeAndCommute :=
  ⟨fun n x y => ⟨reverseBits_eq_reverseByteOrder x, reverseBits_eq_reverseBitsPerByte x,
      complement_permuteBits (fun _ => mirroredInByte_lt) x, complement_permuteBits (fun _ => mirroredByte_lt) x,
      permuteBits_xor mirroredInByte x y, permuteBits_xor (mirroredByte (8 * n)) x y⟩,
    fun _ x y => ⟨complement_reverseBits x, reverseBits_xor x y, complement_xor x y⟩⟩

end Sys2Proof.Machine
end

section
/-! # `RESULT` and the conventions (10_state.md sections 4 and 6, 43_conventions.md section 2) -/

namespace Sys2Proof.Machine

@[simp] theorem otf_vanilla (r : Word) : otf 0 r = r := rfl

theorem otf_invert (r : Word) : otf 1 r = complement r := rfl

theorem otf_two (r : Word) : otf 2 r = reverseBits (complement r) := rfl

/-- Convention 3 reverses the bits and then the bytes, which reverses the bits of each byte. -/
theorem otf_three_eq (r : Word) : otf 3 r = reverseBitsPerByte (complement r) := by
  rw [otf_three, otf_two, reverseBits_eq_reverseByteOrder (n := 4)]
  exact reverseByteOrder_involutive 4 _

theorem getLsbD_complement_of_lt {w : Nat} (x : BitVec w) {i : Nat} (hi : i < w) :
    (complement x).getLsbD i = !x.getLsbD i := by
  rw [getLsbD_complement, decide_eq_true hi, Bool.true_and]

/-- Settles O45: each convention's output transform, read bit by bit. -/
theorem resultBitByBit : Obligations.ResultBitByBit := by
  intro s i hi
  refine ⟨fun hc => ?_, fun hc => ?_, fun hc => ?_, fun hc => ?_⟩ <;> rw [State.result, hc]
  · rw [otf_vanilla]
  · rw [otf_invert, getLsbD_complement_of_lt _ hi]
  · rw [otf_two, reverseBits_eq_permuteBits, getLsbD_permuteBits _ _ hi, getLsbD_complement_of_lt _ (mirroredBit_lt hi),
      mirroredBit]
  · rw [otf_three_eq, reverseBitsPerByte_eq_permuteBits, getLsbD_permuteBits _ _ hi,
      getLsbD_complement_of_lt _ (mirroredInByte_lt (n := 4) hi), mirroredInByte]

/-- Settles O46: the saturated positions and length select the same transforms and pad. -/
theorem perBytePiecesMakeConventions : Obligations.PerBytePiecesMakeConventions := by
  intro c m
  simp only [itf_min, padBytes_min]
  rw [convValue_eq_otf_vanilla, vanilla_mapIdx]
  rfl

end Sys2Proof.Machine
end

section
/-! # The serial bit step and byte step (41_serial_engine.md section 1)

Linearity is what later parts turn on: it lets a register be split into pieces and each be followed on its own. -/

namespace Sys2Proof.Machine

/-- The fourteen taps of the polynomial (R50). -/
theorem getLsbD_poly : ∀ j < 32,
    Config.poly.getLsbD j = decide (j ∈ [0, 1, 2, 4, 5, 7, 8, 10, 11, 12, 16, 22, 23, 26]) := by
  decide

/-- Below a clear top bit nothing is fed back: the step is a plain shift. -/
theorem toNat_sstep_of_lt {r : Word} (b : Bool) (hr : r.toNat < 2 ^ 31) : (sstep r b).toNat = 2 * r.toNat + b.toNat := by
  have htop : r.getLsbD 31 = false := Nat.testBit_lt_two_pow hr
  have hshift : r.toNat <<< 1 % 2 ^ 32 = r.toNat <<< 1 := Nat.mod_eq_of_lt (by omega)
  have hbit : b.toNat % 2 ^ 32 = b.toNat := Nat.mod_eq_of_lt (by cases b <;> decide)
  rw [sstep_eq, htop, if_neg Bool.false_ne_true, BitVec.ofNat_eq_ofNat, BitVec.xor_zero, BitVec.toNat_or,
    BitVec.toNat_shiftLeft, BitVec.toNat_setWidth, BitVec.toNat_ofBool, hshift, hbit, ← Nat.shiftLeft_add_eq_or_of_lt (Bool.toNat_lt b)]
  omega

/-- Settles O34: the 32-bit form and the per-bit form hold by their lemmas, and the shift by the former. -/
theorem serialStepForms : Obligations.SerialStepForms := fun r b =>
  ⟨sstep_eq r b, fun j hj => getLsbD_poly j hj ▸ getLsbD_sstep r b hj, toNat_sstep_of_lt b⟩

theorem sstep_xor (r1 r2 : Word) (b1 b2 : Bool) : sstep (r1 ^^^ r2) (b1 ^^ b2) = sstep r1 b1 ^^^ sstep r2 b2 := by
  refine BitVec.eq_of_getLsbD_eq fun j hj => ?_
  simp only [BitVec.getLsbD_xor, getLsbD_sstep _ _ hj, Bool.and_xor_distrib_left]
  split <;> simp only [Bool.xor_assoc, Bool.xor_left_comm]

/-- Bit 0 of the answer tells the bit shifted out, and then every other bit tells the one below it. -/
theorem sstep_injective (b : Bool) : Function.Injective fun r => sstep r b := by
  intro r r' h
  have hbit (j : Nat) (hj : j < 32) :
      ((if j = 0 then b else r.getLsbD (j - 1)) ^^ (Config.poly.getLsbD j && r.getLsbD 31)) =
      ((if j = 0 then b else r'.getLsbD (j - 1)) ^^ (Config.poly.getLsbD j && r'.getLsbD 31)) := by
    rw [← getLsbD_sstep r b hj, ← getLsbD_sstep r' b hj]
    exact congrArg (BitVec.getLsbD · j) h
  have htop : r.getLsbD 31 = r'.getLsbD 31 := by simpa [Config.poly] using hbit 0 (by decide)
  refine BitVec.eq_of_getLsbD_eq fun i hi => ?_
  by_cases hlast : i = 31
  · rw [hlast, htop]
  · have hnext := hbit (i + 1) (by omega)
    rw [htop] at hnext
    simpa only [Nat.add_one_ne_zero, if_false, Nat.add_sub_cancel, Bool.xor_left_inj] using hnext

theorem sbyte_xor (r1 r2 : Word) (d1 d2 : Byte) : sbyte (r1 ^^^ r2) (d1 ^^^ d2) = sbyte r1 d1 ^^^ sbyte r2 d2 := by
  simp only [sbyte_eq, BitVec.getLsbD_xor, sstep_xor]

/-- Below a clear top byte the byte step is a plain byte shift (R67's corner case, through R64). -/
theorem sbyte_of_clear_top {r : Word} (d : Byte) (hr : r.toNat < 2 ^ 24) : sbyte r d = r <<< 8 ||| d.setWidth 32 := by
  rw [← pstep_eq_sbyte, ← pstep_byteOperand_of_clear_top hr (zext_byte_lt d), byteOperand_setWidth]

theorem toNat_sbyte_of_clear_top {r : Word} (d : Byte) (hr : r.toNat < 2 ^ 24) :
    (sbyte r d).toNat = 256 * r.toNat + d.toNat := by
  have hshift : r.toNat <<< 8 % 2 ^ 32 = r.toNat <<< 8 := Nat.mod_eq_of_lt (by omega)
  rw [sbyte_of_clear_top d hr, BitVec.toNat_or, BitVec.toNat_shiftLeft, BitVec.toNat_setWidth_of_le (by decide), hshift,
    ← Nat.shiftLeft_add_eq_or_of_lt d.isLt]
  omega

/-- As long as the bytes fit above the register's value, they are packed in, the first highest. -/
theorem toNat_foldl_sbyte {m : List Byte} {r : Word} (h : (r.toNat + 1) * 256 ^ m.length ≤ 2 ^ 32) :
    (m.foldl sbyte r).toNat = m.foldl (fun n d => 256 * n + d.toNat) r.toNat := by
  induction m generalizing r with
  | nil => rfl
  | cons d m ih =>
    have hd := d.isLt
    have hpos : 1 ≤ 256 ^ m.length := Nat.one_le_pow _ _ (by decide)
    rw [List.length_cons, Nat.pow_succ'] at h
    have hstep := toNat_sbyte_of_clear_top (r := r) d (by nlinarith)
    rw [List.foldl_cons, List.foldl_cons, ← hstep]
    exact ih (by rw [hstep]; nlinarith)

/-- From a zero register at most four bytes are packed unchanged. -/
theorem toNat_foldl_sbyte_zero {m : List Byte} (h : m.length ≤ 4) :
    (m.foldl sbyte 0).toNat = m.foldl (fun n d => 256 * n + d.toNat) 0 :=
  toNat_foldl_sbyte (r := 0) (by simpa using Nat.pow_le_pow_right (n := 256) (by decide) h)

theorem toNat_append_eq_add {v w : Nat} (x : BitVec v) (y : BitVec w) : (x ++ y).toNat = 2 ^ w * x.toNat + y.toNat := by
  rw [BitVec.toNat_append, ← Nat.shiftLeft_add_eq_or_of_lt y.isLt, Nat.shiftLeft_eq, Nat.mul_comm]

theorem foldl_sbyte_zero_four (b0 b1 b2 b3 : Byte) : [b0, b1, b2, b3].foldl sbyte 0 = b0 ++ b1 ++ b2 ++ b3 := by
  apply BitVec.eq_of_toNat_eq
  rw [toNat_foldl_sbyte_zero (by simp), toNat_append_eq_add, toNat_append_eq_add, toNat_append_eq_add]
  simp

/-- Settles O35: an injective map of a finite set into itself is a bijection. -/
theorem serialStepLinearAndInvertible : Obligations.SerialStepLinearAndInvertible :=
  ⟨sstep_xor, fun b => Finite.injective_iff_bijective.1 (sstep_injective b), foldl_sbyte_zero_four⟩

end Sys2Proof.Machine
end

section
/-! # The forms of the parallel step (42_parallel_engine.md sections 1 and 4) -/

namespace Sys2Proof.Machine

/-! ### The masks and the derived subsets -/

theorem foldl_xor_init (f : Nat → Bool) (l : List Nat) (p : Bool) :
    l.foldl (fun p i => p ^^ f i) p = (p ^^ l.foldl (fun p i => p ^^ f i) false) := by
  induction l generalizing p with
  | nil => simp
  | cons i l ih => rw [List.foldl_cons, List.foldl_cons, ih, ih (false ^^ f i), Bool.false_xor, Bool.xor_assoc]

theorem parity_append {v w : Nat} (x : BitVec v) (y : BitVec w) : parity (x ++ y) = (parity y ^^ parity x) := by
  have hlow : (List.range w).foldl (fun p i => p ^^ (x ++ y).getLsbD i) false = parity y :=
    List.foldl_ext _ _ _ fun p i hi => by simp [BitVec.getLsbD_append, List.mem_range.1 hi]
  have hrange : List.range (v + w) = List.range w ++ (List.range v).map (w + ·) := by rw [Nat.add_comm, List.range_add]
  rw [parity, hrange, List.foldl_append, foldl_xor_init, hlow, List.foldl_map]
  simp [parity, BitVec.getLsbD_append]

/-- The derivation of R68 ends in the masks of R62. -/
theorem derivedSubsets_eq_masks : ∀ i < 32, derivedSubsets.getD i 0 = byteMask i ++ registerMasks.getD i 0 := by
  decide

theorem pstepDerived_eq_pstepByMasks (d : Byte) (r : Word) : pstepDerived d r = pstepByMasks d r := by
  refine BitVec.eq_of_getLsbD_eq fun i hi => ?_
  rw [pstepDerived, pstepByMasks, getLsbD_ofBits, getLsbD_ofBits, derivedSubsets_eq_masks i hi, ← parity_append,
    BitVec.and_append]

/-- The parity of a masked value is the XOR of the bits that the mask selects. -/
theorem parity_and {w : Nat} (v m : BitVec w) :
    parity (v &&& m) = ((List.range w).filter m.getLsbD).foldl (fun p i => p ^^ v.getLsbD i) false := by
  rw [parity, List.foldl_filter]
  refine List.foldl_ext _ _ _ fun p i _ => ?_
  rw [BitVec.getLsbD_and]
  cases m.getLsbD i <;> simp

theorem pstepByMasks_eq_pstep (d : Byte) (r : Word) : pstepByMasks d r = pstep d r := by
  have hword : List.range 32 = [0, 1, 2, 3, 4, 5, 6, 7, 8, 9, 10, 11, 12, 13, 14, 15, 16, 17, 18, 19, 20, 21, 22, 23, 24,
      25, 26, 27, 28, 29, 30, 31] := rfl
  have hbyte : List.range 8 = [0, 1, 2, 3, 4, 5, 6, 7] := rfl
  refine BitVec.eq_of_getLsbD_eq fun i hi => ?_
  rw [pstepByMasks, getLsbD_ofBits, getLsbD_pstep, Bool.xor_comm, parity_and, parity_and, ← foldl_xor_init, hword, hbyte]
  interval_cases i <;> simp [xorEquation, registerMasks, byteMask, List.filter]

/-! ### The closed form -/

/-- `F(t)` is what eight bit steps leave of the top byte `t` alone. -/
theorem feedback_eq_sbyte : ∀ t : Byte, feedback t = sbyte (t ++ 0#24) 0 := by
  decide +kernel

/-- The register splits into its top byte and the rest; the rest is shifted, the top byte fed back. -/
theorem pstepClosed_eq_pstep (d : Byte) (r : Word) : pstepClosed d r = pstep d r := by
  have hsplit : r = (r.extractLsb' 0 24).setWidth 32 ^^^ (r.extractLsb' 24 8 ++ 0#24) := by
    refine BitVec.eq_of_getLsbD_eq fun i hi => ?_
    rw [BitVec.getLsbD_xor, BitVec.getLsbD_setWidth, BitVec.getLsbD_extractLsb', BitVec.getLsbD_append,
      BitVec.getLsbD_extractLsb', decide_eq_true hi]
    by_cases h : i < 24
    · simp [h]
    · have htop : i - 24 < 8 := by omega
      have hback : 24 + (i - 24) = i := by omega
      simp [h, htop, hback]
  have hlow : ((r.extractLsb' 0 24).setWidth 32).toNat < 2 ^ 24 := toNat_zext_lt (by decide) _
  have hshift : sbyte ((r.extractLsb' 0 24).setWidth 32) d = r.extractLsb' 0 24 ++ d := by
    apply BitVec.eq_of_toNat_eq
    rw [toNat_sbyte_of_clear_top d hlow, toNat_append_eq_add, BitVec.toNat_setWidth_of_le (by decide)]
    rfl
  calc pstepClosed d r
      = sbyte ((r.extractLsb' 0 24).setWidth 32) d ^^^ sbyte (r.extractLsb' 24 8 ++ 0#24) 0 := by
        rw [pstepClosed, hshift, feedback_eq_sbyte]
    _ = sbyte r d := by rw [← sbyte_xor, ← hsplit, BitVec.ofNat_eq_ofNat, BitVec.xor_zero]
    _ = pstep d r := (pstep_eq_sbyte d r).symm

/-- Settles O40: the masks and the closed form are the equations, and the derivation is the masks. -/
theorem parallelStepForms : Obligations.ParallelStepForms := fun d r =>
  ⟨pstepByMasks_eq_pstep d r, pstepClosed_eq_pstep d r,
    (pstepDerived_eq_pstepByMasks d r).trans (pstepByMasks_eq_pstep d r)⟩

/-! ### The engines on a message (42_parallel_engine.md section 2, 70_reset_and_hazards.md section 4) -/

theorem parallelCompute_eq_foldl_sbyte (q : List Byte) : parallelCompute q = q.foldl sbyte 0 :=
  congrArg (fun byteStep => q.foldl byteStep 0) parallelByteStep_eq_sbyte

/-- Settles O41: the serial engine is the fold of the byte step over the padded message. -/
theorem parallelOfPaddedIsSerial : Obligations.ParallelOfPaddedIsSerial := by
  refine fun m => ⟨parallelCompute_eq_foldl_sbyte (pad m), parallelCompute_eq_foldl_sbyte (pad m), fun h => ?_⟩
  rw [parallelCompute_eq_foldl_sbyte, toNat_foldl_sbyte_zero h]

theorem foldl_sstep_feedBits (q : List Byte) (r : Word) : (q.flatMap feedBits).foldl sstep r = q.foldl sbyte r :=
  List.foldl_flatMap

theorem length_flatMap_feedBits (q : List Byte) : (q.flatMap feedBits).length = 8 * q.length := by
  induction q with
  | nil => rfl
  | cons d q ih =>
    rw [List.flatMap_cons, List.length_append, ih, List.length_cons]
    simp only [feedBits, List.length_cons, List.length_nil]
    omega

/-- FINS in bit steps. -/
theorem exec_fins_bitSteps {s : State} (hs : s.Running) :
    exec .fins s = .next { s with crc := ((padBytes s.len.val).flatMap feedBits).foldl sstep s.crc, xout := 0 } := by
  rw [exec_of_wellFormed hs rfl, foldl_sstep_feedBits]
  rfl

/-- A command that writes no register keeps `CRC`, whether or not it faults. -/
theorem exec_keeps_crc {i : Instr} (s : State) (hi : writesNoRegister i = true) :
    ∃ t, exec i s = .next t ∧ t.crc = s.crc := by
  obtain ⟨t, ht⟩ := exec_answers_next i s
  obtain ⟨-, -, hcrc, -⟩ := frameOfEveryCommand i s t ht
  exact ⟨t, ht, hcrc hi⟩

/-- Settles O42: each command's effect is the fold its rule gives, and the bytes of a message are eight bits each. -/
theorem stepCountsOfTheEngines : Obligations.StepCountsOfTheEngines := by
  refine ⟨fun s din hs => ⟨fun hw => exec_of_wellFormed hs (decide_eq_true hw), fun hw => ?_, exec_fins_bitSteps hs,
    exec_of_wellFormed hs rfl, length_flatMap_feedBits _, length_padBytes _, fun i => exec_keeps_crc s,
    fun c => ⟨_, exec_init c hs, rfl⟩⟩, fun _ => rfl,
    fun m => ⟨(foldl_sstep_feedBits (pad m) 0).symm, ?_, rfl, length_pad m⟩⟩
  · exact ⟨exec_of_wellFormed hs (decide_eq_true hw), exec_of_wellFormed hs (decide_eq_true hw), countByte s.len,
      countByte_val s.len, exec_of_wellFormed hs (decide_eq_true hw), exec_of_wellFormed hs (decide_eq_true hw)⟩
  · rw [length_flatMap_feedBits, length_pad]

end Sys2Proof.Machine
end

section
/-! # Runs compose (20_memory.md section 6)

What the block makes of an input does not depend on what is pending behind it, so a run can be continued with any
inputs. -/

namespace Sys2Proof.Machine

theorem exec_pending {i : Instr} {s t : State} (p : List HostInput) (ht : exec i s = .next t) :
    exec i { s with pending := p } = .next { t with pending := p } := by
  obtain ⟨hs, e⟩ | ⟨hs, hw, e⟩ | ⟨hs, hw, e⟩ := exec_cases i s <;>
    obtain rfl := Host.Outcome.next.inj (e.symm.trans ht)
  · exact exec_of_halted i hs
  · exact exec_of_illFormed hs hw
  · rw [← effectOf_pending]
    exact exec_of_wellFormed (s := { s with pending := p }) hs hw

/-- The answer to an input leaves the rest of the stream as it was. -/
theorem presentInput_pending {input : HostInput} {s t : State} (p : List HostInput)
    (ht : presentInput input s = .next t) :
    presentInput input { s with pending := p } = .next { t with pending := p } := by
  obtain ⟨rfl, e⟩ | ⟨cw, rfl, ⟨hs, e⟩ | ⟨hs, x, hd, e⟩ | ⟨-, i, hd, e⟩⟩ := presentInput_cases input s
  · obtain rfl := Host.Outcome.next.inj (e.symm.trans ht)
    rfl
  · obtain rfl := Host.Outcome.next.inj (e.symm.trans ht)
    exact presentCommand_of_halted (s := { s with pending := p }) cw hs
  · obtain rfl := Host.Outcome.next.inj (e.symm.trans ht)
    exact presentCommand_of_error (s := { s with pending := p }) hs hd
  · rw [presentInput, presentCommand_of_ok hd]
    exact exec_pending p (e.symm.trans ht)

/-- A run goes on from the block's answer to its first input. -/
theorem runInputs_cons_of_presentInput {input : HostInput} {s t : State} (rest : List HostInput)
    (ht : presentInput input s = .next t) : runInputs (input :: rest) s = runInputs rest t := by
  have hstep : step { s with pending := input :: rest } = .next { t with pending := rest } :=
    (step_of_cons rfl).trans (presentInput_pending (s := s) rest ht)
  exact (runInputs_cons hstep rfl).trans (runInputs_pending rest rest t)

/-- Every sequence of inputs leaves a state from which a longer one goes on. -/
theorem exists_runInputs_append (a : List HostInput) (s : State) :
    ∃ t, ∀ b, runInputs (a ++ b) s = runInputs b t := by
  induction a generalizing s with
  | nil => exact ⟨s, fun _ => rfl⟩
  | cons input a ih =>
    obtain ⟨u, hu⟩ := presentInput_answers_next input s
    obtain ⟨t, ht⟩ := ih u
    exact ⟨t, fun b => (runInputs_cons_of_presentInput (a ++ b) hu).trans (ht b)⟩

/-- Settles O6: the run of `a` is the one that goes on with no input. -/
theorem runsComposeInOrder : Obligations.RunsComposeInOrder := by
  intro a b s
  obtain ⟨t, ht⟩ := exists_runInputs_append a s
  obtain ⟨u, hu⟩ := exists_runInputs_append b t
  have ha : runInputs a s = .next { t with pending := [] } := by
    simpa using ht []
  have hb : runInputs b t = .next { u with pending := [] } := by
    simpa using hu []
  exact ⟨_, _, ha, hb, (ht b).trans hb, rfl⟩

end Sys2Proof.Machine
end

section
/-! # A bracket after reset (70_reset_and_hazards.md sections 1 and 5) -/

namespace Sys2Proof.Machine

/-- Settles O52: after reset the block is where `INIT 0` would leave it, so the run is that of the Vanilla bracket. -/
theorem vanillaNeedsNoInitAfterReset : Obligations.VanillaNeedsNoInitAfterReset := by
  intro items parallelFin s hl
  obtain ⟨t, hrun, hresult, -, -, hfault⟩ := runInstrs_bracket 0 items parallelFin (applyReset s) rfl hl
  refine ⟨t, ?_, hresult, hfault⟩
  have hinit : effectOf (.init 0) (applyReset s) = applyReset s := rfl
  rw [bracket, runInstrs_cons _ (applyReset_fault s) rfl, hinit] at hrun
  rw [List.cons_append, runInputs_cons_of_presentInput (t := applyReset s) _ rfl, ← hrun, runInstrs, List.map_append,
    List.map_map]
  rfl

end Sys2Proof.Machine
end

section
/-! # Raw commands and pseudo-commands (41_serial_engine.md section 3, 30_encoding.md section 7) -/

namespace Sys2Proof.Machine

/-! ### A list of bytes through SBYTE or PBYTE -/

/-- The raw byte command of either engine. -/
def rawByte (parallel : Bool) (d : Byte) : Instr :=
  if parallel then .pbyte (d.setWidth 32) else .sbyte (d.setWidth 32)

theorem effectOf_rawByte (parallel : Bool) (d : Byte) (s : State) :
    effectOf (rawByte parallel d) s = writeCrc (sbyte s.crc d) s := by
  cases parallel
  · exact congrArg (fun d => writeCrc (sbyte s.crc d) s) (byteOperand_setWidth d)
  · exact congrArg (writeCrc · s) ((pstep_eq_sbyte _ _).trans (congrArg (sbyte s.crc) (byteOperand_setWidth d)))

theorem wellFormed_rawByte (parallel : Bool) (d : Byte) : (rawByte parallel d).wellFormed = true := by
  cases parallel <;> exact decide_eq_true (zext_byte_lt d)

theorem foldl_effectOf_rawByte (parallel : Bool) (q : List Byte) {s : State} (hx : s.xout = 0) :
    (q.map (rawByte parallel)).foldl (fun s i => effectOf i s) s = writeCrc (q.foldl sbyte s.crc) s := by
  induction q generalizing s with
  | nil => rw [List.map_nil, List.foldl_nil, List.foldl_nil, writeCrc, ← hx]
  | cons d q ih =>
    rw [List.map_cons, List.foldl_cons, effectOf_rawByte, ih rfl, List.foldl_cons]
    rfl

/-- `INIT 0` and then raw commands for `q`: the byte step folded over `q`, the other registers as `INIT 0` leaves them. -/
theorem runInstrs_rawBytes (parallel : Bool) (q : List Byte) {s : State} (hs : s.Running) :
    ∃ t, runInstrs (.init 0 :: q.map (rawByte parallel)) s = .next t ∧ t.crc = q.foldl sbyte 0 ∧ t.len = 0 ∧
      t.conv = 0 ∧ t.fault = .noFault := by
  have hw : ∀ i ∈ .init 0 :: q.map (rawByte parallel), i.wellFormed = true :=
    List.forall_mem_cons.2 ⟨rfl, List.forall_mem_map.2 fun d _ => wellFormed_rawByte parallel d⟩
  refine ⟨_, runInstrs_of_wellFormed hs hw, ?_⟩
  rw [List.foldl_cons, foldl_effectOf_rawByte parallel q rfl]
  exact ⟨rfl, rfl, rfl, hs⟩

/-- What those commands leave on `RESULT`. -/
theorem result_rawBytes (parallel : Bool) (q : List Byte) {s : State} (hs : s.Running) :
    ∃ t, runInstrs (.init 0 :: q.map (rawByte parallel)) s = .next t ∧ t.result = q.foldl sbyte 0 ∧
      t.fault = .noFault := by
  obtain ⟨t, hrun, hcrc, -, hconv, hfault⟩ := runInstrs_rawBytes parallel q hs
  exact ⟨t, hrun, by rw [State.result, hconv, otf_vanilla, hcrc], hfault⟩

/-- Settles O53: Vanilla and the parallel value are that fold, over the padded and over the bare message. -/
theorem rawCommandsNeedTheCallersPadding : Obligations.RawCommandsNeedTheCallersPadding := fun m _ hs =>
  ⟨result_rawBytes false (pad m) hs, result_rawBytes true (pad m) hs,
    parallelCompute_eq_foldl_sbyte m ▸ result_rawBytes true m hs⟩

/-! ### The expansions of the pseudo-commands -/

theorem asmNumber_toNat (v : Word) : asmNumber v.toNat = some v := by
  rw [asmNumber, if_pos v.isLt, BitVec.ofNat_toNat, BitVec.setWidth_eq]

theorem asmNumber_byte (d : Byte) : asmNumber d.toNat = some (d.setWidth 32) := by
  rw [← asmNumber_toNat, BitVec.toNat_setWidth_of_le (by decide)]

theorem asmConvention_toNat (c : Convention) : asmConvention c.toNat = some c := by
  rw [asmConvention, if_pos c.isLt, BitVec.ofNat_toNat, BitVec.setWidth_eq]

theorem mapM_asmNumber (m : List Byte) : (m.map BitVec.toNat).mapM asmNumber = some (m.map (BitVec.setWidth 32)) := by
  induction m with
  | nil => rfl
  | cons d m ih => simp [List.mapM_cons, asmNumber_byte, ih]

/-- MSGS and MSGP stand for the bracket of the message through one engine. -/
theorem asmMessage_eq_bracket (c : Convention) (m : List Byte) (parallel : Bool) :
    asmMessage (if parallel then .datap else .datas) (finish parallel) c.toNat (m.map BitVec.toNat) =
      some (bracket c (m.map (messageItem parallel)) parallel) := by
  rw [asmMessage, asmConvention_toNat, mapM_asmNumber]
  cases parallel <;> simp [bracket, messageItem, BracketItem.instr, Function.comp_def]

/-- The four bytes of a word, the highest first, make up the word. -/
theorem append_wordBytes (v : Word) :
    v.extractLsb' 24 8 ++ v.extractLsb' 16 8 ++ v.extractLsb' 8 8 ++ v.extractLsb' 0 8 = v := by
  have happend {i j m n : Nat} (h : j = i + n) : v.extractLsb' j m ++ v.extractLsb' i n = v.extractLsb' i (m + n) :=
    BitVec.extractLsb'_append_extractLsb'_eq_extractLsb' h
  rw [happend (rfl : 24 = 16 + 8), happend (rfl : 16 = 8 + 8), happend (rfl : 8 = 0 + 8), BitVec.extractLsb'_eq_self]

/-- SETCRC feeds the bytes of `v` into a zero register, which takes them unchanged. -/
theorem setcrc_effect (v : Word) {s : State} (hs : s.Running) :
    ∃ is t, assemble (.setcrc v.toNat) = some is ∧ is.length = 5 ∧ runInstrs is s = .next t ∧ t.crc = v ∧ t.len = 0 ∧
      t.conv = 0 ∧ t.fault = .noFault := by
  obtain ⟨t, hrun, hcrc, hrest⟩ := runInstrs_rawBytes true
    [v.extractLsb' 24 8, v.extractLsb' 16 8, v.extractLsb' 8 8, v.extractLsb' 0 8] hs
  rw [foldl_sbyte_zero_four, append_wordBytes] at hcrc
  refine ⟨_, t, ?_, ?_, hrun, hcrc, hrest⟩
  · rw [assemble, asmNumber_toNat]
    rfl
  · rfl

/-- Settles O54: each pseudo-command stands for commands whose run is known. -/
theorem pseudoCommandsHaveTheirEffects : Obligations.PseudoCommandsHaveTheirEffects := by
  refine fun s hs => ⟨?_, fun v hv => ?_, fun d => ?_, fun c m => ?_⟩
  · obtain ⟨t, hrun, hregs⟩ := runInstrs_rawBytes false [] hs
    exact ⟨_, t, rfl, hrun, hregs⟩
  · obtain ⟨is, t, hasm, hlen, hrun, hcrc, hregs⟩ := setcrc_effect (BitVec.ofNat 32 v) hs
    have htoNat : (BitVec.ofNat 32 v).toNat = v := Nat.mod_eq_of_lt hv
    rw [htoNat] at hasm
    exact ⟨is, t, hasm, hlen, hrun, hcrc ▸ htoNat, hregs⟩
  · exact ⟨_, _, rfl, rfl, runInstrs_sbits d hs, rfl, rfl, rfl, hs⟩
  · obtain ⟨t, hrun, hresult, hfault⟩ := runInstrs_engineBracket c m false hs
    obtain ⟨t', hrun', hresult', hfault'⟩ := runInstrs_engineBracket c m true hs
    exact ⟨_, _, t, t', asmMessage_eq_bracket c m false, hrun, hresult, hfault, asmMessage_eq_bracket c m true, hrun',
      hresult', hfault'⟩

end Sys2Proof.Machine
end

section
/-! # Where the assembler puts a line's operands (30_encoding.md section 7) -/

namespace Sys2Proof.Machine

theorem toNat_assembleWord (op : BitVec 4) (sel : BitVec 2) (din : Word) :
    (assembleWord op sel 0 din).toNat = op.toNat * 2 ^ 36 + sel.toNat * 2 ^ 34 + din.toNat := by
  rw [assembleWord, toNat_append_eq_add, toNat_append_eq_add, toNat_append_eq_add, BitVec.ofNat_eq_ofNat,
    BitVec.toNat_ofNat, Nat.zero_mod]
  omega

/-- The words a line stands for, as numbers. -/
def wordsOf (line : AsmLine) : Option (List Nat) := (assemble line).map fun is => is.map fun i => (encode i).toNat

/-- A line with a number: its row's operation code and `sel`, and the number if it fits in 32 bits. -/
theorem wordsOf_number {line : AsmLine} {n : Nat} {op : BitVec 4} {sel : BitVec 2} {i : Word → Instr} {o w : Nat}
    (hline : assemble line = (asmNumber n).map fun din => [i din])
    (hi : ∀ din, encode (i din) = assembleWord op sel 0 din) (ho : op.toNat = o) (hw : sel.toNat = w) :
    wordsOf line = if n < 2 ^ 32 then some [o * 2 ^ 36 + w * 2 ^ 34 + n] else none := by
  rw [wordsOf, hline, asmNumber]
  split
  next hn =>
    have hdin : (BitVec.ofNat 32 n).toNat = n := Nat.mod_eq_of_lt hn
    rw [Option.map_some, Option.map_some, List.map_cons, List.map_nil, hi, toNat_assembleWord, hdin, ho, hw]
  next => rfl

/-- A line with a number whose command has no `sel`. -/
theorem wordsOf_data {line : AsmLine} {n : Nat} {op : BitVec 4} {i : Word → Instr} {o : Nat}
    (hline : assemble line = (asmNumber n).map fun din => [i din])
    (hi : ∀ din, encode (i din) = assembleWord op 0 0 din) (ho : op.toNat = o) :
    wordsOf line = if n < 2 ^ 32 then some [o * 2 ^ 36 + n] else none := by
  rw [wordsOf_number hline hi ho BitVec.toNat_zero, Nat.zero_mul, Nat.add_zero]

/-- The three widths of a transform line have one operation code and the width codes 0, 1 and 2. -/
theorem wordsOf_transform {line : WidthSuffix → Nat → AsmLine} {op : BitVec 4} {i8 i16 i32 : Word → Instr} {o n : Nat}
    (hline : ∀ w, assemble (line w n) = asmTransform i8 i16 i32 w n)
    (h8 : ∀ din, encode (i8 din) = assembleWord op 0 0 din) (h16 : ∀ din, encode (i16 din) = assembleWord op 1 0 din)
    (h32 : ∀ din, encode (i32 din) = assembleWord op 2 0 din) (ho : op.toNat = o) :
    ∀ w ∈ [(0, WidthSuffix.w8), (1, .w16), (2, .w32)],
      wordsOf (line w.2 n) = if n < 2 ^ 32 then some [o * 2 ^ 36 + w.1 * 2 ^ 34 + n] else none := by
  simp only [List.forall_mem_cons]
  exact ⟨wordsOf_number (hline .w8) h8 ho rfl, wordsOf_number (hline .w16) h16 ho rfl,
    wordsOf_number (hline .w32) h32 ho rfl, List.forall_mem_nil _⟩

theorem toNat_encode_init (c : Convention) : (encode (.init c)).toNat = 2 ^ 36 + c.toNat * 2 ^ 34 := by
  revert c
  decide

theorem wordsOf_init (c : Nat) : wordsOf (.init c) = if c < 4 then some [2 ^ 36 + c * 2 ^ 34] else none := by
  rw [wordsOf, assemble, asmConvention]
  split
  next hc =>
    have hconv : (BitVec.ofNat 2 c).toNat = c := Nat.mod_eq_of_lt hc
    rw [Option.map_some, Option.map_some, List.map_cons, List.map_nil, toNat_encode_init, hconv]
  next => rfl

theorem wordsOf_initNamed (name : ConventionName) :
    wordsOf (.initNamed name) = some [2 ^ 36 + name.number.toNat * 2 ^ 34] :=
  congrArg (fun word => some [word]) (toNat_encode_init name.number)

/-- Settles O55: a line with a number or a convention, and a family of transform lines, each by its lemma. -/
theorem assemblerPlacesOperands : Obligations.AssemblerPlacesOperands := by
  refine ⟨by decide, by decide, by decide, wordsOf_init, wordsOf_initNamed, fun n => ⟨?_, fun w hw => ?_⟩⟩
  · simp only [List.forall_mem_cons]
    exact ⟨wordsOf_data (op := 2) rfl (fun _ => rfl) rfl, wordsOf_data (op := 3) rfl (fun _ => rfl) rfl,
      wordsOf_data (op := 4) rfl (fun _ => rfl) rfl, wordsOf_data (op := 5) rfl (fun _ => rfl) rfl,
      wordsOf_data (op := 6) rfl (fun _ => rfl) rfl, List.forall_mem_nil _⟩
  · simp only [List.forall_mem_cons]
    exact ⟨wordsOf_transform (line := .revb) (op := 9) (fun _ => rfl) (fun _ => rfl) (fun _ => rfl) (fun _ => rfl) rfl w hw,
      wordsOf_transform (line := .revpb) (op := 10) (fun _ => rfl) (fun _ => rfl) (fun _ => rfl) (fun _ => rfl) rfl w hw,
      wordsOf_transform (line := .swapb) (op := 11) (fun _ => rfl) (fun _ => rfl) (fun _ => rfl) (fun _ => rfl) rfl w hw,
      wordsOf_transform (line := .cpl) (op := 12) (fun _ => rfl) (fun _ => rfl) (fun _ => rfl) (fun _ => rfl) rfl w hw,
      List.forall_mem_nil _⟩

end Sys2Proof.Machine
end

section
/-! # The serial engine as polynomial division (41_serial_engine.md R52 item 4, R55)

A word is its coefficients (`coeff_polyOfWord`), so the bit step can be checked coefficient by coefficient against the
division by the generator; a message is then divided bit by bit, the remainder so far standing for all that was fed. -/

namespace Sys2Proof.Machine

open Polynomial

@[simp] theorem bitCoefficient_false : bitCoefficient false = 0 := rfl

@[simp] theorem bitCoefficient_true : bitCoefficient true = 1 := rfl

theorem bitCoefficient_xor (a b : Bool) : bitCoefficient (a ^^ b) = bitCoefficient a + bitCoefficient b := by
  revert a b
  decide

theorem bitCoefficient_and (a b : Bool) : bitCoefficient (a && b) = bitCoefficient a * bitCoefficient b := by
  revert a b
  decide

theorem coeff_polyOfWord {w : Nat} (x : BitVec w) (i : Nat) : (polyOfWord x).coeff i = bitCoefficient (x.getLsbD i) := by
  simp only [polyOfWord, finsetSum_coeff, coeff_C_mul_X_pow, Finset.sum_ite_eq, Finset.mem_range]
  split
  next => rfl
  next h => rw [BitVec.getLsbD_of_ge x i (Nat.le_of_not_lt h), bitCoefficient_false]

theorem degree_polyOfWord_lt {w : Nat} (x : BitVec w) : (polyOfWord x).degree < w :=
  (degree_lt_iff_coeff_zero _ _).2 fun i hi => by
    rw [coeff_polyOfWord, BitVec.getLsbD_of_ge x i hi, bitCoefficient_false]

theorem generator_coeff_32 : generator.coeff 32 = 1 := by
  rw [generator, coeff_polyOfWord]
  rfl

theorem generator_degree_le : generator.degree ≤ 32 := Order.le_of_lt_succ (degree_polyOfWord_lt Config.poly33)

theorem generator_monic : generator.Monic := monic_of_degree_le 32 generator_degree_le generator_coeff_32

theorem degree_polyOfWord_lt_generator (r : Word) : (polyOfWord r).degree < generator.degree :=
  (degree_polyOfWord_lt r).trans_le (le_degree_of_ne_zero (by rw [generator_coeff_32]; exact one_ne_zero))

/-- Below its leading term the generator is the 32-bit polynomial. -/
theorem getLsbD_poly33 {j : Nat} (hj : j < 32) : Config.poly33.getLsbD j = Config.poly.getLsbD j := by
  have h : Config.poly33.setWidth 32 = Config.poly := rfl
  rw [← h, BitVec.getLsbD_setWidth, decide_eq_true hj, Bool.true_and]

/-- What the bit step leaves, and the generator as often as a one was shifted out, make up `r X + b`. -/
theorem polyOfWord_sstep_add (r : Word) (b : Bool) :
    polyOfWord (sstep r b) + generator * C (bitCoefficient (r.getLsbD 31)) = polyOfWord r * X + C (bitCoefficient b) := by
  ext j
  rw [coeff_add, coeff_mul_C, coeff_add, generator, coeff_polyOfWord, coeff_polyOfWord, ← bitCoefficient_and,
    ← bitCoefficient_xor]
  rcases j with - | j
  · rw [coeff_mul_X_zero, coeff_C_zero, zero_add, getLsbD_poly33 (by decide), getLsbD_sstep r b (by decide)]
    simp
  · rw [coeff_mul_X, coeff_C_succ, add_zero, coeff_polyOfWord]
    congr 1
    obtain hlow | rfl | hhigh := Nat.lt_trichotomy j 31
    · rw [getLsbD_poly33 (by omega), getLsbD_sstep r b (by omega)]
      simp
    · rw [BitVec.getLsbD_of_ge _ 32 le_rfl, Bool.false_xor]
      exact Bool.true_and _
    · rw [BitVec.getLsbD_of_ge _ _ (by omega), BitVec.getLsbD_of_ge _ _ (by omega), BitVec.getLsbD_of_ge r j (by omega)]
      rfl

theorem polyOfWord_sstep (r : Word) (b : Bool) :
    polyOfWord (sstep r b) = (polyOfWord r * X + C (bitCoefficient b)) %ₘ generator :=
  (div_modByMonic_unique _ _ generator_monic
    ⟨polyOfWord_sstep_add r b, degree_polyOfWord_lt_generator (sstep r b)⟩).2.symm

/-- Settles O36: it is `polyOfWord_sstep`, the division checked coefficient by coefficient. -/
theorem serialStepReducesModuloGenerator : Obligations.SerialStepReducesModuloGenerator := polyOfWord_sstep

/-! ### A sequence of bits -/

theorem polyOfBits_concat (bits : List Bool) (b : Bool) :
    polyOfBits (bits ++ [b]) = polyOfBits bits * X + C (bitCoefficient b) := by
  rw [polyOfBits, polyOfBits, List.length_append, List.length_singleton, Finset.sum_range_succ, Finset.sum_mul]
  congr 1
  · refine Finset.sum_congr rfl fun i hi => ?_
    have hi : i < bits.length := Finset.mem_range.1 hi
    have hexp : bits.length + 1 - 1 - i = bits.length - 1 - i + 1 := by omega
    rw [hexp, pow_succ, mul_assoc, List.getD_append _ _ _ _ hi]
  · simp

theorem polyOfBits_append_zeros (bits : List Bool) (n : Nat) :
    polyOfBits (bits ++ List.replicate n false) = polyOfBits bits * X ^ n := by
  induction n with
  | zero => simp
  | succ n ih =>
    rw [List.replicate_succ', ← List.append_assoc, polyOfBits_concat, ih, bitCoefficient_false, C_0, add_zero, pow_succ,
      mul_assoc]

/-- Only the remainder of what was fed matters to the next bit. -/
theorem modByMonic_mul_X_add (p : (ZMod 2)[X]) (a : ZMod 2) :
    (p %ₘ generator * X + C a) %ₘ generator = (p * X + C a) %ₘ generator := by
  refine modByMonic_eq_of_dvd_sub generator_monic ⟨-(p /ₘ generator * X), ?_⟩
  have hdiv := modByMonic_add_div p generator
  linear_combination X * hdiv

theorem polyOfWord_foldl_sstep (bits : List Bool) : polyOfWord (bits.foldl sstep 0) = polyOfBits bits %ₘ generator := by
  induction bits using List.reverseRecOn with
  | nil =>
    have hzero : polyOfWord (0 : Word) = 0 := by ext i; simp [coeff_polyOfWord]
    rw [List.foldl_nil, hzero, polyOfBits, List.length_nil, Finset.sum_range_zero, zero_modByMonic]
  | append_singleton bits b ih =>
    rw [List.foldl_concat, polyOfWord_sstep, ih, modByMonic_mul_X_add, polyOfBits_concat]

theorem polyOfWord_serialCompute (m : List Byte) :
    polyOfWord (serialCompute m) = polyOfBits ((pad m).flatMap feedBits) %ₘ generator := by
  rw [← polyOfWord_foldl_sstep, foldl_sstep_feedBits]
  rfl

/-- From four bytes on the pad is thirty-two zero bits. -/
theorem flatMap_feedBits_pad {m : List Byte} (h : 4 ≤ m.length) :
    (pad m).flatMap feedBits = m.flatMap feedBits ++ List.replicate 32 false := by
  rw [pad_of_ge h, List.flatMap_append]
  rfl

/-- Settles O37: the engine divides bit by bit, and zero bits multiply by X. -/
theorem serialEngineComputesRemainder : Obligations.SerialEngineComputesRemainder := by
  refine fun m => ⟨polyOfWord_serialCompute m, fun h => ?_⟩
  rw [polyOfWord_serialCompute, flatMap_feedBits_pad h, polyOfBits_append_zeros]

end Sys2Proof.Machine
end

section
/-! # The usual formulation of the CRC (43_conventions.md R87)

Feeding four zero bytes (`flush`) carries a register of the serial engine to one of the usual formulation: both are
linear, and a byte fed at the bottom arrives at the top after three of the four. -/

namespace Sys2Proof.Machine

/-- Four zero bytes through the serial engine. -/
def flush (r : Word) : Word := [0, 0, 0, 0].foldl sbyte r

theorem flush_xor (r1 r2 : Word) : flush (r1 ^^^ r2) = flush r1 ^^^ flush r2 := by
  have hstep (r1 r2 : Word) : sbyte (r1 ^^^ r2) 0 = sbyte r1 0 ^^^ sbyte r2 0 := sbyte_xor r1 r2 0 0
  simp only [flush, List.foldl_cons, List.foldl_nil, hstep]

theorem directByte_eq (r : Word) (d : Byte) : directByte r d = sbyte r 0 ^^^ sbyte (d ++ 0#24) 0 :=
  sbyte_xor r (d ++ 0#24) 0 0

/-- A byte alone in the register is shifted up by three zero bytes and reduced by the fourth. -/
theorem flush_byte : ∀ d : Byte, flush (d.setWidth 32) = sbyte (d ++ 0#24) 0 := by
  decide +kernel

/-- A byte fed is the register moved on, with the byte in its low end. -/
theorem sbyte_eq_xor (r : Word) (d : Byte) : sbyte r d = sbyte r 0 ^^^ d.setWidth 32 := by
  have hbyte : sbyte 0 d = d.setWidth 32 := by
    rw [sbyte_of_clear_top d (by decide)]
    simp
  calc sbyte r d = sbyte (r ^^^ 0) (0 ^^^ d) := by simp
    _ = sbyte r 0 ^^^ d.setWidth 32 := by rw [sbyte_xor, hbyte]

/-- One byte, before or after the flush. -/
theorem directByte_flush (r : Word) (d : Byte) : directByte (flush r) d = flush (sbyte r d) := by
  have hcomm : sbyte (flush r) 0 = flush (sbyte r 0) := by simp only [flush, List.foldl_cons, List.foldl_nil]
  rw [directByte_eq, hcomm, ← flush_byte, ← flush_xor, ← sbyte_eq_xor]

theorem directCrc_flush (m : List Byte) (r : Word) : directCrc (flush r) m = flush (m.foldl sbyte r) := by
  induction m generalizing r with
  | nil => rfl
  | cons d m ih => exact (congrArg (directCrc · m) (directByte_flush r d)).trans (ih (sbyte r d))

theorem foldl_sbyte_zeros (m : List Byte) (r : Word) : (m ++ [0, 0, 0, 0]).foldl sbyte r = flush (m.foldl sbyte r) :=
  List.foldl_append

/-- From four bytes on Vanilla is the usual CRC with initial value 0. -/
theorem vanilla_eq_directCrc {m : List Byte} (h : 4 ≤ m.length) : vanilla m = directCrc 0 m := by
  have hzero : flush 0 = 0 := by decide +kernel
  rw [vanilla, serialCompute, pad_of_ge h, Config.initialCrc, foldl_sbyte_zeros, ← directCrc_flush]
  exact congrArg (directCrc · m) hzero

/-! ### All ones -/

/-- The register that four zero bytes turn into all ones. -/
def beforeAllOnes : Word := 0x46AF6449

theorem flush_beforeAllOnes : flush beforeAllOnes = 0xFFFFFFFF := by
  decide +kernel

theorem length_complementFirst4 (m : List Byte) : (complementFirst4 m).length = m.length := List.length_mapIdx

/-- The pad bytes `0xFF` are zero bytes complemented by position. -/
theorem padByte_eq_complement (len k : Nat) : padByte len k = if len + k < 4 then complement 0 else 0 := rfl

theorem pad_complementFirst4 (m : List Byte) : pad (complementFirst4 m) = complementFirst4 (m ++ [0, 0, 0, 0]) := by
  rw [pad, length_complementFirst4, complementFirst4, complementFirst4, List.mapIdx_append]
  simp [padBytes, padByte_eq_complement, Nat.add_comm]

theorem complementFirst4_append {a rest : List Byte} (h : a.length = 4) :
    complementFirst4 (a ++ rest) = a.map complement ++ rest := by
  have hfirst : a.mapIdx (fun i d => if i < 4 then complement d else d) = a.map complement :=
    List.ext_getElem (by simp) fun i hi _ => by
      rw [List.length_mapIdx, h] at hi
      simp [hi]
  have hrest : rest.mapIdx (fun i d => if i + a.length < 4 then complement d else d) = rest :=
    List.ext_getElem (by simp) fun i _ _ => by simp [h]
  rw [complementFirst4, List.mapIdx_append, hfirst, hrest]

/-- Four bytes: what the register held moves on without them, and they move on without it. -/
theorem foldl_sbyte_four (r : Word) (a b c d : Byte) :
    [a, b, c, d].foldl sbyte r = flush r ^^^ [a, b, c, d].foldl sbyte 0 := by
  have hstep (r1 r2 : Word) (d : Byte) : sbyte (r1 ^^^ r2) d = sbyte r1 0 ^^^ sbyte r2 d := by
    simpa using sbyte_xor r1 r2 0 d
  have hr : r ^^^ 0 = r := by simp
  calc [a, b, c, d].foldl sbyte r
      = [a, b, c, d].foldl sbyte (r ^^^ 0) := by rw [hr]
    _ = flush r ^^^ [a, b, c, d].foldl sbyte 0 := by simp only [flush, List.foldl_cons, List.foldl_nil, hstep]

/-- Complementing four bytes is starting from that register: it puts all ones on top of them. -/
theorem foldl_sbyte_map_complement {a : List Byte} (h : a.length = 4) :
    (a.map complement).foldl sbyte 0 = a.foldl sbyte beforeAllOnes := by
  obtain ⟨b0, b1, b2, b3, rfl⟩ := List.length_eq_four.1 h
  have hones : (0xFFFFFFFF : Word) = BitVec.allOnes 32 := rfl
  rw [foldl_sbyte_four, flush_beforeAllOnes, hones, List.map_cons, List.map_cons, List.map_cons, List.map_cons,
    List.map_nil, foldl_sbyte_zero_four, foldl_sbyte_zero_four, BitVec.allOnes_xor]
  simp only [complement_eq_not, ← BitVec.not_append]

theorem foldl_sbyte_complementFirst4 {q : List Byte} (h : 4 ≤ q.length) :
    (complementFirst4 q).foldl sbyte 0 = q.foldl sbyte beforeAllOnes := by
  have hlen : (q.take 4).length = 4 := List.length_take_of_le h
  rw [← List.take_append_drop 4 q, complementFirst4_append hlen, List.foldl_append, foldl_sbyte_map_complement hlen,
    List.foldl_append]

/-- Settles O56: complementing the first four padded bytes is the all-ones start, and the pad's zeros are the flush. -/
theorem invertIsTheAllOnesCrc : Obligations.InvertIsTheAllOnesCrc := by
  refine fun m => ⟨?_, vanilla_eq_directCrc, pad_complementFirst4 m⟩
  have hlen : 4 ≤ (m ++ [0, 0, 0, 0]).length := by simp
  rw [invert, vanilla, serialCompute, pad_complementFirst4, Config.initialCrc, ← flush_beforeAllOnes, directCrc_flush,
    ← foldl_sbyte_zeros, ← foldl_sbyte_complementFirst4 hlen]
  rfl

end Sys2Proof.Machine
end

section
/-! # The reflected CRC-32 (43_conventions.md R86)

Reading the register backwards turns the usual formulation into the reflected one. -/

namespace Sys2Proof.Machine

theorem reverseBits_poly : reverseBits Config.poly = Config.polyReflected := by
  decide +kernel

theorem reverseBits_shiftLeft_one (r : Word) : reverseBits (r <<< 1) = reverseBits r >>> 1 := by
  refine BitVec.eq_of_getLsbD_eq fun i hi => ?_
  rw [BitVec.getLsbD_ushiftRight, getLsbD_reverseBits, getLsbD_reverseBits, BitVec.getLsbD_shiftLeft]
  by_cases hlast : i = 31
  · simp [hlast]
  · have hsrc : 32 - 1 - (1 + i) = 32 - 1 - i - 1 := by omega
    have hin : 1 + i < 32 := by omega
    have hmid : 32 - 1 - i < 32 := by omega
    have hlow : ¬ 32 - 1 - i < 1 := by omega
    rw [hsrc, decide_eq_true hi, decide_eq_true hin, decide_eq_true hmid, decide_eq_false hlow]
    rfl

/-- The bit step with input 0, read backwards. -/
theorem reverseBits_sstep_false (r : Word) : reverseBits (sstep r false) = reflectedStep (reverseBits r) := by
  have hbit : (reverseBits r).getLsbD 0 = r.getLsbD 31 := by
    rw [getLsbD_reverseBits]
    rfl
  have hshift : r <<< 1 ||| (BitVec.ofBool false).setWidth 32 = r <<< 1 := BitVec.or_zero
  rw [sstep_eq, hshift, reverseBits_xor, reverseBits_shiftLeft_one, reflectedStep, hbit]
  split
  · rw [reverseBits_poly]
  · exact BitVec.xor_zero

theorem reverseBits_foldl_sstep_false (n : Nat) (r : Word) :
    reverseBits ((List.replicate n false).foldl sstep r) = reflectedStep^[n] (reverseBits r) := by
  induction n generalizing r with
  | zero => rfl
  | succ n ih => rw [List.replicate_succ, List.foldl_cons, ih, reverseBits_sstep_false, Function.iterate_succ_apply]

/-- A byte at the top of a word, read backwards, is the reversed byte at its low end. -/
theorem reverseBits_append_zero (d : Byte) : reverseBits (d ++ 0#24 : Word) = (reverseBits d).setWidth 32 := by
  revert d
  decide +kernel

theorem reverseBits_directByte (r : Word) (d : Byte) :
    reverseBits (directByte r d) = reflectedByte (reverseBits r) (reverseBits d) := by
  rw [directByte, reverseBits_foldl_sstep_false, reverseBits_xor, reverseBits_append_zero]
  rfl

theorem reverseBits_directCrc (m : List Byte) (r : Word) :
    reverseBits (directCrc r (m.map reverseBits)) = m.foldl reflectedByte (reverseBits r) := by
  induction m generalizing r with
  | nil => rfl
  | cons d m ih =>
    calc reverseBits (directCrc r ((d :: m).map reverseBits))
        = m.foldl reflectedByte (reverseBits (directByte r (reverseBits d))) := ih (directByte r (reverseBits d))
      _ = (d :: m).foldl reflectedByte (reverseBits r) := by
        rw [reverseBits_directByte, reverseBits_involutive 8 d, List.foldl_cons]

/-- Settles O57: Invert of the reversed bytes is the usual all-ones CRC (O56), read backwards. -/
theorem conventionTwoIsTheReferenceCrc : Obligations.ConventionTwoIsTheReferenceCrc := by
  intro m
  have hones : reverseBits (0xFFFFFFFF : Word) = 0xFFFFFFFF := by decide +kernel
  obtain ⟨hinvert, -⟩ := invertIsTheAllOnesCrc (m.map reverseBits)
  have hreference : bitReverseInvert m = referenceCrc m := by
    rw [bitReverseInvert, hinvert, ← complement_reverseBits, reverseBits_directCrc, hones, referenceCrc]
    rfl
  exact ⟨hreference, congrArg reverseByteOrder hreference⟩

end Sys2Proof.Machine
end
